-- ==== Sys2Proof/Word.lean ====
section
/-! DEFINITION. The widths of the machine (spec/00_scope.md R5, R7, R8): bytes, 16-bit words, 12-bit addresses,
register and key indices. Every quantity is unsigned. -/

namespace Sys2Proof

/-- A register or memory value: 8 bits, unsigned (R5 REG_WIDTH, R7). -/
abbrev Byte := BitVec 8

/-- An instruction word, `pc`, `I` or a stack entry: 16 bits (R5, R90). -/
abbrev Word := BitVec 16

/-- The operand NNN: 12 bits (R9, R93). -/
abbrev Addr12 := BitVec 12

/-- The index of a general register, 0x0 to 0xF; no other index can arise (R21). -/
abbrev Reg := Fin 16

/-- The number of a key, 0x0 to 0xF (R34). -/
abbrev KeyNum := Fin 16

/-- V0, which BNNN adds and with which the FX55/FX65 ranges begin (R22). -/
abbrev V0 : Reg := 0

/-- VF, the flag register (R24). -/
abbrev VF : Reg := 15

end Sys2Proof
end

