-- ==== Sys2Proof/Config.lean ====
section
/-! DEFINITION. What is fixed for the machine (spec/00_scope.md R5) and what the source leaves open (R6): the
constants, and the two free values, which have no body, so that no proof can know what they are. -/

namespace Sys2Proof.Config

/-- Bytes of memory, addresses 0x000 to 0xFFF (R5 MEM_SIZE). -/
abbrev memSize : Nat := 4096

/-- Size of the glyph region 0x000 to 0x04F: 16 glyphs of 5 bytes (R5, R33). -/
abbrev glyphBytes : Nat := 80

/-- Where Load puts the program, and pc after Reset (R5 PROG_BASE, R38). -/
abbrev progBase : Nat := 0x200

/-- The longest program Load takes (R5 PROG_MAX_LEN, R256). -/
abbrev progMaxLen : Nat := 3584

/-- Entries of the call stack (R5 STACK_DEPTH). -/
abbrev stackDepth : Nat := 16

/-- Columns of the display (R5 DISP_W). -/
abbrev dispW : Nat := 64

/-- Rows of the display (R5 DISP_H). -/
abbrev dispH : Nat := 32

/-- FREE VALUE. Byte k (k < 80) of the parameter GLYPHS, the glyph sprites that Reset writes at 0x000..0x04F. The
source gives their place and size and no values (R6, R33, D16: "A proof about a program that draws glyphs must take
GLYPHS as a hypothesis"). DESIGN CHOICE, safe: log 2. -/
opaque glyphByte : Nat → Byte

/-- FREE VALUE. The byte the n-th draw of CXNN gets when the host's byte is not given: "a fresh, unconstrained 8-bit
value each time a CXNN executes" (R173, R6). DESIGN CHOICE, safe: log 1. -/
opaque randByte : Nat → Byte

/-- The conventional font (R33), which the spec marks as general knowledge and offers as the default of GLYPHS. No
definition of the model uses it: it is here for a claim that takes `glyphByte k = defaultGlyphs[k]` as a premise. -/
def defaultGlyphs : List Byte :=
  [0xF0, 0x90, 0x90, 0x90, 0xF0,  0x20, 0x60, 0x20, 0x20, 0x70,
   0xF0, 0x10, 0xF0, 0x80, 0xF0,  0xF0, 0x10, 0xF0, 0x10, 0xF0] ++
  [0x90, 0x90, 0xF0, 0x10, 0x10,  0xF0, 0x80, 0xF0, 0x10, 0xF0,
   0xF0, 0x80, 0xF0, 0x90, 0xF0,  0xF0, 0x10, 0x20, 0x40, 0x40] ++
  [0xF0, 0x90, 0xF0, 0x90, 0xF0,  0xF0, 0x90, 0xF0, 0x10, 0xF0,
   0xF0, 0x90, 0xF0, 0x90, 0x90,  0xE0, 0x90, 0xE0, 0x90, 0xE0] ++
  [0xF0, 0x80, 0x80, 0x80, 0xF0,  0xE0, 0x90, 0x90, 0x90, 0xE0,
   0xF0, 0x80, 0xF0, 0x80, 0xF0,  0xF0, 0x80, 0xF0, 0x80, 0x80]

end Sys2Proof.Config
end

