-- ==== Sys2Proof/Machine/State.lean ====
section
/-! DEFINITION. The state of CORE: one field for each of the ten components of spec/10_state.md R20 and nothing else;
the wrapper in which `step` gets its random byte from outside CORE; the reasons a step can stop; the state after Reset
(R38). All plain data. -/

namespace Sys2Proof.Machine

/-- Memory contents: the bytes that differ from what Reset put there, as (address, byte) pairs in canonical form
(`Memory.wf` in Machine/Ops.lean). -/
abbrev Memory := List Host.Cell

/-- The display buffer, by rows: `pix[y][x]` is PIX[x][y], x the column from the left, y the row from the top (R35). -/
abbrev Display := Vector (Vector Bool 64) 32

/-- The machine state of CORE: exactly the ten components of R20 and nothing else. -/
structure CoreState where
  /-- V[0]..V[15]; V[15] is the flag (R21, R24). -/
  v     : Vector Byte 16
  /-- The index register I, all 16 bits stored (R26). -/
  i     : Word
  /-- The program counter, never masked (R27, R28). -/
  pc    : Word
  /-- STACK[0]..STACK[15] (R29). -/
  stack : Vector Word 16
  /-- SP, the number of live entries, 0 to 16 (R30). -/
  sp    : Fin 17
  /-- The delay timer (R31). -/
  dt    : Byte
  /-- The sound timer (R31). -/
  st    : Byte
  /-- MEM, 4096 bytes (R32). -/
  mem   : Memory
  /-- KEY[0]..KEY[15], true when pressed (R34). -/
  key   : Vector Bool 16
  /-- PIX (R35). -/
  pix   : Display
  deriving DecidableEq, Repr

/-- NOT state of CORE: the host's side of the input `rand` of Step (R36: "inputs of a transaction, not fields of the
state"). `step` has no argument but a state, so the input stands beside CORE (log 1). -/
structure RandomSupply where
  /-- The byte the host supplied for the Step about to run, if it named one. -/
  rand  : Option Byte
  /-- How many bytes have been taken so far: with none named, the next one is a fresh free value. -/
  draws : Nat
  deriving DecidableEq, Repr

/-- What `step` runs on: CORE, whole, and beside it the host's supply of random bytes. The spec's Step(rand) and every
other transaction are on `CoreState` alone (Machine/Transactions.lean). -/
structure State extends core : CoreState where
  /-- The host's, outside CORE (log 1). -/
  supply : RandomSupply
  deriving DecidableEq, Repr

/-- The four faults of spec/60_exceptions.md R210. A fault is the result of the Step; the state after it is the state
before it (R214), so the outcome carries none. Each is what the spec says: safe. -/
inductive Fault where
  /-- Raised by the fetch, DXYN, FX33, FX55, FX65 when `addr + len > 4096` (R211). Safe. -/
  | addressOutOfRange (addr len : Nat)
  /-- Raised at decode for a word that is no instruction (R212). Safe. -/
  | unknownOpcode (op : Word)
  /-- Raised by 2NNN when SP = 16 (R213). Safe. -/
  | stackOverflow
  /-- Raised by 00EE when SP = 0 (R215). Safe. -/
  | stackUnderflow
  deriving DecidableEq, Repr

/-- The fault's number on a fault port (R210). -/
def Fault.code : Fault → Nat
  | .addressOutOfRange _ _ => 1
  | .unknownOpcode _ => 2
  | .stackOverflow => 3
  | .stackUnderflow => 4

/-- What the model gives no meaning. No instruction and no Step ends in one: the last three are raised by host
transactions (Machine/Transactions.lean) only. -/
inductive Refusal where
  /-- An instruction whose arm of `exec` has no meaning yet: raised by no arm. Safe. -/
  | notModelled (mnemonic : String)
  /-- A transaction before the first Reset: "issue it once before anything else" (R238). Safe. -/
  | beforeReset
  /-- A Load of more than 3584 bytes: "refused as a whole and writes nothing" (R256). Safe. -/
  | loadTooLong
  /-- A second Load, or a Load after the first Step: "a model should have no such move" (R256). Safe. -/
  | loadOutOfTurn
  deriving DecidableEq, Repr

/-- What an instruction or a Step answers. -/
abbrev Result := Host.Outcome State Fault Refusal

/-- All pixels unset. -/
def Display.clear : Display := Vector.replicate 32 (Vector.replicate 64 false)

/-- The state of CORE after the Reset transaction (R38, R250): no cell of memory is listed, so every byte reads as
Reset leaves it. -/
def CoreState.reset : CoreState where
  v     := Vector.replicate 16 0
  i     := 0
  pc    := 0x0200
  stack := Vector.replicate 16 0
  sp    := 0
  dt    := 0
  st    := 0
  mem   := []
  key   := Vector.replicate 16 false
  pix   := Display.clear

/-- CORE after Reset, and beside it a supply that has named no byte and given none: DESIGN CHOICE, log 1. -/
def State.reset : State where
  core   := CoreState.reset
  supply := { rand := none, draws := 0 }

end Sys2Proof.Machine
end

