-- ==== Sys2Proof/Machine/Flags.lean ====
section
/-! DEFINITION. Every flag the machine computes (spec/10_state.md R24): a 0 or a 1 in the whole of VF. There is no
signed overflow and no carry in (spec/43_alu.md R171). The collision flag of DXYN is computed by the drawing itself,
in Machine/Display.lean. -/

namespace Sys2Proof.Machine

/-- A flag as the value of VF: 1 or 0. -/
def flagByte (b : Bool) : Byte := if b then 1 else 0

/-- 8XY4: the carry out of bit 7 of `a + b` (R166). -/
def carryFlag (a b : Byte) : Byte := flagByte (decide (a.toNat + b.toNat > 255))

/-- 8XY5 and 8XY7: NOT borrow of `a - b`; equality is no borrow (R167, R169). -/
def noBorrowFlag (a b : Byte) : Byte := flagByte (decide (a.toNat ≥ b.toNat))

/-- 8XY6: the bit shifted out on the right (R168). -/
def lsbFlag (a : Byte) : Byte := flagByte (a.getLsbD 0)

/-- 8XYE: the bit shifted out on the left (R170). -/
def msbFlag (a : Byte) : Byte := flagByte (a.getLsbD 7)

end Sys2Proof.Machine
end

