-- ==== Sys2Proof/Syntax.lean ====
section
/-! DEFINITION. The instruction set: one constructor for each of the 34 rows of spec/opcode_table.json, in the table's
order (spec/30_encoding.md R96). Operands are the fields X, Y, NN, NNN, N of R9 and R91, as the row names them; the
Y field of SHR and SHL is in the word and unused (R94), and is kept so that no bit of a word is lost (log 9). -/

namespace Sys2Proof

inductive Instr where
  /-- 00E0, clear display (R190). -/
  | cls
  /-- 00EE, return (R140). -/
  | ret
  /-- 1NNN, jump (R141). -/
  | jp (nnn : Addr12)
  /-- 2NNN, call (R142). -/
  | call (nnn : Addr12)
  /-- 3XNN, skip if VX = NN (R150). -/
  | seImm (x : Reg) (nn : Byte)
  /-- 4XNN, skip if VX ≠ NN (R151). -/
  | sneImm (x : Reg) (nn : Byte)
  /-- 5XY0, skip if VX = VY (R152). -/
  | seReg (x y : Reg)
  /-- 6XNN, load immediate (R160). -/
  | ldImm (x : Reg) (nn : Byte)
  /-- 7XNN, add immediate (R161). -/
  | addImm (x : Reg) (nn : Byte)
  /-- 8XY0, register move (R162). -/
  | ldReg (x y : Reg)
  /-- 8XY1, bitwise or (R163). -/
  | orReg (x y : Reg)
  /-- 8XY2, bitwise and (R164). -/
  | andReg (x y : Reg)
  /-- 8XY3, bitwise exclusive or (R165). -/
  | xorReg (x y : Reg)
  /-- 8XY4, add with carry out (R166). -/
  | addReg (x y : Reg)
  /-- 8XY5, VX minus VY (R167). -/
  | subReg (x y : Reg)
  /-- 8XY6, shift VX right; y is in the word and unused (R168, R94). -/
  | shr (x y : Reg)
  /-- 8XY7, VY minus VX (R169). -/
  | subnReg (x y : Reg)
  /-- 8XYE, shift VX left; y is in the word and unused (R170, R94). -/
  | shl (x y : Reg)
  /-- 9XY0, skip if VX ≠ VY (R153). -/
  | sneReg (x y : Reg)
  /-- ANNN, load index (R180). -/
  | ldI (nnn : Addr12)
  /-- BNNN, jump to NNN + V0 (R143). -/
  | jpV0 (nnn : Addr12)
  /-- CXNN, random byte and NN (R173). -/
  | rnd (x : Reg) (nn : Byte)
  /-- DXYN, draw a sprite of n rows (R191); n is a count, 0 to 15. -/
  | drw (x y : Reg) (n : Nat)
  /-- EX9E, skip if key VX is pressed (R154). -/
  | skp (x : Reg)
  /-- EXA1, skip if key VX is not pressed (R155). -/
  | sknp (x : Reg)
  /-- FX07, read the delay timer (R200). -/
  | ldVxDt (x : Reg)
  /-- FX0A, wait for a key (R201). -/
  | ldVxK (x : Reg)
  /-- FX15, set the delay timer (R202). -/
  | ldDtVx (x : Reg)
  /-- FX18, set the sound timer (R203). -/
  | ldStVx (x : Reg)
  /-- FX1E, add to index (R181). -/
  | addI (x : Reg)
  /-- FX29, glyph sprite address (R182). -/
  | ldF (x : Reg)
  /-- FX33, store the decimal digits (R183). -/
  | ldB (x : Reg)
  /-- FX55, store V0..VX (R184). -/
  | storeRegs (x : Reg)
  /-- FX65, load V0..VX (R185). -/
  | loadRegs (x : Reg)
  deriving DecidableEq, Repr

end Sys2Proof
end

