-- ==== Sys2Proof/Decode.lean ====
section
/-! DEFINITION. Decoding (spec/30_encoding.md R90 to R99) and encoding, written from the same formats (R92). Decoding is
total on any word and any list of bytes; what it refuses it refuses by name. -/

namespace Sys2Proof

/-- `{b0, b1}`: the big-endian combination of two bytes (R10, R64). -/
def be16 (b0 b1 : Byte) : Word := b0 ++ b1

/-- The byte at the lower address: the category nibble and X (R64, R90). -/
def hiByte (op : Word) : Byte := op.extractLsb' 8 8

/-- The byte at the higher address (R64, R90). -/
def loByte (op : Word) : Byte := op.extractLsb' 0 8

/-- C = op[15:12] (R91). -/
def fieldC (op : Word) : BitVec 4 := op.extractLsb' 12 4

/-- X = op[11:8], a register index (R9, R91). -/
def fieldX (op : Word) : Reg := (op.extractLsb' 8 4).toFin

/-- Y = op[7:4], a register index (R9, R91). -/
def fieldY (op : Word) : Reg := (op.extractLsb' 4 4).toFin

/-- N = op[3:0] (R9, R91). -/
def fieldN (op : Word) : BitVec 4 := op.extractLsb' 0 4

/-- NN = op[7:0] (R9, R91). -/
def fieldNN (op : Word) : Byte := op.extractLsb' 0 8

/-- NNN = op[11:0] (R9, R91). -/
def fieldNNN (op : Word) : Addr12 := op.extractLsb' 0 12

/-- Category 8: the sub-opcode is the fourth nibble (R92 format R). -/
def decodeAlu (x y : Reg) (n : Nat) : Option Instr :=
  match n with
  | 0x0 => some (.ldReg x y)
  | 0x1 => some (.orReg x y)
  | 0x2 => some (.andReg x y)
  | 0x3 => some (.xorReg x y)
  | 0x4 => some (.addReg x y)
  | 0x5 => some (.subReg x y)
  | 0x6 => some (.shr x y)
  | 0x7 => some (.subnReg x y)
  | 0xE => some (.shl x y)
  | _ => none

/-- Category E: the sub-opcode is the low byte (R92 format S). -/
def decodeKey (x : Reg) (nn : Nat) : Option Instr :=
  match nn with
  | 0x9E => some (.skp x)
  | 0xA1 => some (.sknp x)
  | _ => none

/-- Category F: the sub-opcode is the low byte (R92 format S). -/
def decodeMisc (x : Reg) (nn : Nat) : Option Instr :=
  match nn with
  | 0x07 => some (.ldVxDt x)
  | 0x0A => some (.ldVxK x)
  | 0x15 => some (.ldDtVx x)
  | 0x18 => some (.ldStVx x)
  | 0x1E => some (.addI x)
  | 0x29 => some (.ldF x)
  | 0x33 => some (.ldB x)
  | 0x55 => some (.storeRegs x)
  | 0x65 => some (.loadRegs x)
  | _ => none

/-- The decoder: one of the 34 instructions with its fields, or unknown (R95, R122). Every literal digit of a pattern
is checked (R97). -/
def decodeWord (op : Word) : Option Instr :=
  match (fieldC op).toNat with
  | 0x0 => if op = 0x00E0 then some .cls else if op = 0x00EE then some .ret else none
  | 0x1 => some (.jp (fieldNNN op))
  | 0x2 => some (.call (fieldNNN op))
  | 0x3 => some (.seImm (fieldX op) (fieldNN op))
  | 0x4 => some (.sneImm (fieldX op) (fieldNN op))
  | 0x5 => if fieldN op = 0 then some (.seReg (fieldX op) (fieldY op)) else none
  | 0x6 => some (.ldImm (fieldX op) (fieldNN op))
  | 0x7 => some (.addImm (fieldX op) (fieldNN op))
  | 0x8 => decodeAlu (fieldX op) (fieldY op) (fieldN op).toNat
  | 0x9 => if fieldN op = 0 then some (.sneReg (fieldX op) (fieldY op)) else none
  | 0xA => some (.ldI (fieldNNN op))
  | 0xB => some (.jpV0 (fieldNNN op))
  | 0xC => some (.rnd (fieldX op) (fieldNN op))
  | 0xD => some (.drw (fieldX op) (fieldY op) (fieldN op).toNat)
  | 0xE => decodeKey (fieldX op) (fieldNN op).toNat
  | 0xF => decodeMisc (fieldX op) (fieldNN op).toNat
  | _ => none

/-- Why a list of bytes does not begin with an instruction. -/
inductive DecodeError where
  /-- The first word matches no row of the opcode map (R99, R212). -/
  | unknownOpcode (op : Word)
  /-- Fewer than the two bytes of an instruction (R90). -/
  | truncated
  deriving DecidableEq, Repr

/-- Decoding a list of bytes as they stand in memory: the instruction and the bytes after it (R64, R90). -/
def decodeBytes : List Byte → Except DecodeError (Instr × List Byte)
  | b0 :: b1 :: rest =>
    match decodeWord (be16 b0 b1) with
    | some i => .ok (i, rest)
    | none => .error (.unknownOpcode (be16 b0 b1))
  | _ => .error .truncated

/-- Format A: category, address (R92). -/
def formatA (c : BitVec 4) (nnn : Addr12) : Word := c ++ nnn

/-- Formats I and S: category, register, low byte (R92). -/
def formatI (c : BitVec 4) (x : Reg) (nn : Byte) : Word := c ++ BitVec.ofFin (w := 4) x ++ nn

/-- Formats R and D: category, two registers, low nibble (R92). -/
def formatR (c : BitVec 4) (x y : Reg) (n : BitVec 4) : Word :=
  c ++ BitVec.ofFin (w := 4) x ++ BitVec.ofFin (w := 4) y ++ n

/-- The encoder, from the patterns of R96. -/
def encode : Instr → Word
  | .cls => 0x00E0
  | .ret => 0x00EE
  | .jp nnn => formatA 0x1 nnn
  | .call nnn => formatA 0x2 nnn
  | .seImm x nn => formatI 0x3 x nn
  | .sneImm x nn => formatI 0x4 x nn
  | .seReg x y => formatR 0x5 x y 0x0
  | .ldImm x nn => formatI 0x6 x nn
  | .addImm x nn => formatI 0x7 x nn
  | .ldReg x y => formatR 0x8 x y 0x0
  | .orReg x y => formatR 0x8 x y 0x1
  | .andReg x y => formatR 0x8 x y 0x2
  | .xorReg x y => formatR 0x8 x y 0x3
  | .addReg x y => formatR 0x8 x y 0x4
  | .subReg x y => formatR 0x8 x y 0x5
  | .shr x y => formatR 0x8 x y 0x6
  | .subnReg x y => formatR 0x8 x y 0x7
  | .shl x y => formatR 0x8 x y 0xE
  | .sneReg x y => formatR 0x9 x y 0x0
  | .ldI nnn => formatA 0xA nnn
  | .jpV0 nnn => formatA 0xB nnn
  | .rnd x nn => formatI 0xC x nn
  | .drw x y n => formatR 0xD x y (BitVec.ofNat 4 n)
  | .skp x => formatI 0xE x 0x9E
  | .sknp x => formatI 0xE x 0xA1
  | .ldVxDt x => formatI 0xF x 0x07
  | .ldVxK x => formatI 0xF x 0x0A
  | .ldDtVx x => formatI 0xF x 0x15
  | .ldStVx x => formatI 0xF x 0x18
  | .addI x => formatI 0xF x 0x1E
  | .ldF x => formatI 0xF x 0x29
  | .ldB x => formatI 0xF x 0x33
  | .storeRegs x => formatI 0xF x 0x55
  | .loadRegs x => formatI 0xF x 0x65

/-- The two bytes of an instruction in memory order, big-endian (R64, R90). -/
def encodeBytes (i : Instr) : List Byte := [hiByte (encode i), loByte (encode i)]

/-- The word that the opcode table's bits `w` give: bit 0 of the table is bit 0 of the word, and a bit above `nbits`
is 0. -/
def tableWord (nbits w : Nat) : Word := BitVec.ofNat 16 (w % 2 ^ nbits)

/-- The instruction the decoder reads from an instruction whose bits the table numbers as `w`, laid out as memory
holds it. -/
def decodeTableWord (nbits w : Nat) : Option Instr :=
  match decodeBytes [hiByte (tableWord nbits w), loByte (tableWord nbits w)] with
  | .ok (i, _) => some i
  | .error _ => none

end Sys2Proof
end

