-- ==== Sys2Proof/Machine/Ops.lean ====
section
/-! DEFINITION. The named operations over memory, registers, the call stack and the random byte; how a Step raises a
fault, and how it completes (spec/10_state.md, spec/20_memory.md, spec/40_step_cycle.md). -/

namespace Sys2Proof.Machine

/-! ### Memory -/

/-- What Reset leaves at an address, and so what an unlisted address reads as: the glyph bytes at 0x000..0x04F, zero
everywhere else (R33, R38, R70). -/
def initialByte (a : Nat) : Byte := if a < Config.glyphBytes then Config.glyphByte a else 0

/-- `MEM[a]`, with no check (R10). -/
def Memory.read : Memory → Nat → Byte
  | [], a => initialByte a
  | (b, w) :: rest, a => if b = a then w else Memory.read rest a

/-- Lists a byte at its place in the rising order, over an earlier one. -/
def Memory.insert : Memory → Nat → Byte → Memory
  | [], a, w => [(a, w)]
  | (b, u) :: rest, a, w =>
    if a < b then (a, w) :: (b, u) :: rest
    else if a = b then (a, w) :: rest
    else (b, u) :: Memory.insert rest a w

/-- `MEM[a] <- w`, with no check (R10); a byte that goes back to its reset value is no longer listed. -/
def Memory.write (m : Memory) (a : Nat) (w : Byte) : Memory :=
  if w = initialByte a then m.filter (fun c => c.1 != a) else m.insert a w

/-- The canonical form: addresses strictly rising and inside the address space (R60), no byte listed that reads the
same when it is not. -/
abbrev Memory.wf (m : Memory) : Prop :=
  m.Pairwise (fun c d => c.1 < d.1) ∧ ∀ c ∈ m, c.1 < Config.memSize ∧ c.2 ≠ initialByte c.1

/-- The n bytes from address a, in ascending order (R62). -/
def Memory.readBytes (m : Memory) : Nat → Nat → List Byte
  | _, 0 => []
  | a, n + 1 => m.read a :: m.readBytes (a + 1) n

/-- Writes the bytes from address a, in ascending order (R63). -/
def Memory.writeBytes : Memory → Nat → List Byte → Memory
  | m, _, [] => m
  | m, a, b :: bs => (m.write a b).writeBytes (a + 1) bs

/-- `MemRead(addr, n)`: the whole range is checked, without wrap-around, before anything is read (R62). -/
def memRead (m : Memory) (addr n : Nat) : Except Fault (List Byte) :=
  if addr + n > Config.memSize then .error (.addressOutOfRange addr n) else .ok (m.readBytes addr n)

/-- `MemWrite(addr, n, bytes)`: the whole range is checked before any byte is written (R63). -/
def memWrite (m : Memory) (addr : Nat) (bytes : List Byte) : Except Fault Memory :=
  if addr + bytes.length > Config.memSize then .error (.addressOutOfRange addr bytes.length)
  else .ok (m.writeBytes addr bytes)

/-! ### Registers: one accessor and one update for each component -/

/-- `V[x]` (R10). -/
def State.getV (s : State) (x : Reg) : Byte := s.v[x]

/-- `V[x] <- b`: no register is protected, VF included (R22). -/
def State.setV (s : State) (x : Reg) (b : Byte) : State := { s with v := s.v.set x b }

/-- All general registers at once. -/
def State.setRegs (s : State) (v : Vector Byte 16) : State := { s with v := v }

/-- `I <- w`. -/
def State.setI (s : State) (w : Word) : State := { s with i := w }

/-- `pc <- w`. -/
def State.setPc (s : State) (w : Word) : State := { s with pc := w }

/-- `DT <- b`. -/
def State.setDt (s : State) (b : Byte) : State := { s with dt := b }

/-- `ST <- b`. -/
def State.setSt (s : State) (b : Byte) : State := { s with st := b }

/-- The memory after a write. -/
def State.setMem (s : State) (m : Memory) : State := { s with mem := m }

/-- The display after 00E0 or DXYN (R35). -/
def State.setPix (s : State) (p : Display) : State := { s with pix := p }

/-- A change to CORE alone: what the host's transactions make of it, the supply beside it left alone. -/
def State.onCore (f : CoreState → CoreState) (s : State) : State := { core := f s.core, supply := s.supply }

/-- The host names (or takes back) the byte of the Step about to run (R36; log 1). -/
def State.setRand (s : State) (r : Option Byte) : State := { s with supply := { s.supply with rand := r } }

/-- V0..VX as a list, VX included (R184). -/
def State.regsUpTo (s : State) (x : Reg) : List Byte := s.v.toList.take (x.val + 1)

/-- `V[k], V[k+1], ... <- bytes`, each register its own byte (R185). -/
def fillRegs (v : Vector Byte 16) : Nat → List Byte → Vector Byte 16
  | _, [] => v
  | k, b :: bs => fillRegs (v.setIfInBounds k b) (k + 1) bs

/-! ### The random byte, an input from outside CORE (R36, R173; log 1) -/

/-- The byte supplied to this Step: the one the host named, else a fresh value that nothing constrains. -/
def RandomSupply.byte (p : RandomSupply) : Byte := p.rand.getD (Config.randByte p.draws)

/-- The supply once its byte has been taken: the next byte is another one. -/
def RandomSupply.next (p : RandomSupply) : RandomSupply := { rand := none, draws := p.draws + 1 }

/-- CXNN has taken its byte. CORE is untouched. -/
def State.drawn (s : State) : State := { s with supply := s.supply.next }

/-! ### The call stack (R29, R30) -/

/-- `STACK[SP] <- w; SP <- SP + 1`, or StackOverflow when SP = 16 (R142, R213). -/
def State.push (s : State) (w : Word) : Except Fault State :=
  if h : s.sp.val < 16 then .ok { s with stack := s.stack.set s.sp.val w h, sp := ⟨s.sp.val + 1, by omega⟩ }
  else .error .stackOverflow

/-- `SP <- SP - 1` and the entry that was on top, which keeps its slot (R29), or StackUnderflow when SP = 0
(R140, R215). -/
def State.pop (s : State) : Except Fault (Word × State) :=
  if s.sp.val = 0 then .error .stackUnderflow
  else .ok (s.stack[s.sp.val - 1]'(by omega), { s with sp := ⟨s.sp.val - 1, by omega⟩ })

/-! ### How a Step ends -/

/-- Taking a fault: it is the result of the Step and nothing else. No handler, no vector, no saved register, no mode,
no record in the state, and so nothing to return from (R214, R219, R221). -/
def raise (f : Fault) : Result := .fault f

/-- A check that precedes every write (R124): a failed one ends the Step, a passed one goes on with its answer. -/
def checked {α : Type} (e : Except Fault α) (k : α → Result) : Result :=
  match e with
  | .error f => raise f
  | .ok a => k a

/-- The Step ends with `pc <- next_pc`, to an address the instruction gives (R126, R127). -/
def jumpTo (target : Word) (s : State) : Result := .next (s.setPc target)

/-- The Step ends with the default `pc <- pc + 2` (R126). -/
def complete (s : State) : Result := jumpTo (s.pc + 2) s

/-- The Step of a skip: `pc + 4` when the condition holds, else `pc + 2`, and nothing else (R156). -/
def skipWhen (c : Bool) (s : State) : Result := jumpTo (if c then s.pc + 4 else s.pc + 2) s

/-- A result to VX and no flag. -/
def writeResult (x : Reg) (b : Byte) (s : State) : Result := complete (s.setV x b)

/-- A result to VX and a flag to VF, the flag last, so that it stays when X = 15 (R125). -/
def writeResultFlag (x : Reg) (b flag : Byte) (s : State) : Result := complete ((s.setV x b).setV VF flag)

/-! ### Fetch and decode -/

/-- The fetch: two bytes at the whole, unmasked pc, big-endian (R64, R67, R121). -/
def fetch (c : CoreState) : Except Fault Word :=
  if c.pc.toNat + 2 > Config.memSize then .error (.addressOutOfRange c.pc.toNat 2)
  else .ok (be16 (c.mem.read c.pc.toNat) (c.mem.read (c.pc.toNat + 1)))

/-- The decode stage: the instruction, or UnknownOpcode with the word (R122, R212). -/
def decodeStage (op : Word) : Except Fault Instr :=
  match decodeWord op with
  | some i => .ok i
  | none => .error (.unknownOpcode op)

end Sys2Proof.Machine
end

