-- ==== Sys2Proof/Machine/Operands.lean ====
section
/-! DEFINITION. Operand forms: zero extension, the address part of I, the key a register names, the decimal digits, the
glyph address, and the accesses at I (spec/20_memory.md R66, spec/30_encoding.md R93). -/

namespace Sys2Proof.Machine

/-- `zext_16(NNN)` (R93). -/
def zextAddr (nnn : Addr12) : Word := nnn.setWidth 16

/-- `zext_16(VX)`. -/
def zextByte (b : Byte) : Word := b.setWidth 16

/-- `I12 = I mod 4096`, the mask applied before any offset is added (R66). -/
def State.i12 (s : State) : Nat := s.i.toNat % 4096

/-- The key a register value names: its low nibble (R154, D10). -/
def keyOf (b : Byte) : KeyNum := (b.extractLsb' 0 4).toFin

/-- The lowest-numbered pressed key, if any key is down (R201). -/
def lowestKey (key : Vector Bool 16) : Option KeyNum := (List.finRange 16).find? fun k => key[k]

/-- The number of a key as a register value, 0x00 to 0x0F (R201). -/
def keyByte (k : KeyNum) : Byte := BitVec.ofNat 8 k.val

/-- Hundreds, tens and ones, one decimal digit a byte (R183). -/
def bcdDigits (b : Byte) : List Byte :=
  [BitVec.ofNat 8 (b.toNat / 100), BitVec.ofNat 8 (b.toNat / 10 % 10), BitVec.ofNat 8 (b.toNat % 10)]

/-- `VX * 5`, exact for the whole byte (R182, D15). -/
def glyphAddress (b : Byte) : Word := BitVec.ofNat 16 (b.toNat * 5)

/-- A store of bytes at I12: FX33 and FX55. I stays as it is (R186). -/
def storeAtI (bytes : List Byte) (s : State) : Result :=
  checked (memWrite s.mem s.i12 bytes) fun m => complete (s.setMem m)

/-- A read of n bytes at I12, before any write: FX65 and DXYN. I stays as it is (R186). -/
def readAtI (n : Nat) (s : State) (k : List Byte → Result) : Result := checked (memRead s.mem s.i12 n) k

end Sys2Proof.Machine
end

