-- ==== Sys2Proof/Machine/Alu.lean ====
section
/-! DEFINITION. Register loads and the ALU (spec/43_alu.md R160 to R173). Operands are read before any write (R124);
the arithmetic is on natural numbers and narrowed modulo 256 at the end (R171). -/

namespace Sys2Proof.Machine

/-- 6XNN (R160). -/
def execLdImm (x : Reg) (nn : Byte) (s : State) : Result := writeResult x nn s

/-- 7XNN (R161): VF is not a flag here. -/
def execAddImm (x : Reg) (nn : Byte) (s : State) : Result :=
  writeResult x (BitVec.ofNat 8 ((s.getV x).toNat + nn.toNat)) s

/-- 8XY0 (R162). -/
def execLdReg (x y : Reg) (s : State) : Result := writeResult x (s.getV y) s

/-- 8XY1 (R163). -/
def execOrReg (x y : Reg) (s : State) : Result := writeResult x (s.getV x ||| s.getV y) s

/-- 8XY2 (R164). -/
def execAndReg (x y : Reg) (s : State) : Result := writeResult x (s.getV x &&& s.getV y) s

/-- 8XY3 (R165). -/
def execXorReg (x y : Reg) (s : State) : Result := writeResult x (s.getV x ^^^ s.getV y) s

/-- 8XY4 (R166). -/
def execAddReg (x y : Reg) (s : State) : Result :=
  writeResultFlag x (BitVec.ofNat 8 ((s.getV x).toNat + (s.getV y).toNat)) (carryFlag (s.getV x) (s.getV y)) s

/-- `(a - b) mod 256`, as `(a + 256 - b) mod 256` (R167). -/
def subMod (a b : Byte) : Byte := BitVec.ofNat 8 (a.toNat + 256 - b.toNat)

/-- 8XY5 (R167). -/
def execSubReg (x y : Reg) (s : State) : Result :=
  writeResultFlag x (subMod (s.getV x) (s.getV y)) (noBorrowFlag (s.getV x) (s.getV y)) s

/-- 8XY6 (R168): VX alone; the Y field is not used. -/
def execShr (x _y : Reg) (s : State) : Result :=
  writeResultFlag x (BitVec.ofNat 8 ((s.getV x).toNat / 2)) (lsbFlag (s.getV x)) s

/-- 8XY7 (R169). -/
def execSubnReg (x y : Reg) (s : State) : Result :=
  writeResultFlag x (subMod (s.getV y) (s.getV x)) (noBorrowFlag (s.getV y) (s.getV x)) s

/-- 8XYE (R170): VX alone; the Y field is not used. -/
def execShl (x _y : Reg) (s : State) : Result :=
  writeResultFlag x (BitVec.ofNat 8 ((s.getV x).toNat * 2)) (msbFlag (s.getV x)) s

/-- CXNN (R173): the byte is the one supplied to this Step, and is taken from the supply. -/
def execRnd (x : Reg) (nn : Byte) (s : State) : Result := writeResult x (s.supply.byte &&& nn) s.drawn

end Sys2Proof.Machine
end

