-- ==== Sys2Proof/Machine/Display.lean ====
section
/-! DEFINITION. The display engine (spec/45_display.md R190 to R193): the sprite loop of R191, row by row from the top
and column by column from the left, each pixel wrapped on its own. -/

namespace Sys2Proof.Machine

/-- PIX[x][y] (R35). -/
def Display.pixel (p : Display) (x : Fin 64) (y : Fin 32) : Bool := p[y][x]

/-- `PIX[x][y] <- not PIX[x][y]`. -/
def Display.toggle (p : Display) (x : Fin 64) (y : Fin 32) : Display := p.set y (p[y].set x (!p[y][x]))

/-- The display and the collision so far, while a sprite is drawn. -/
structure DrawState where
  pix : Display
  hit : Bool
  deriving DecidableEq, Repr

/-- A sprite bit of 1 meets a pixel: XOR with 1, and a collision when it was set (R191, R193). -/
def DrawState.draw (d : DrawState) (x : Fin 64) (y : Fin 32) : DrawState :=
  ⟨d.pix.toggle x y, d.hit || d.pix.pixel x y⟩

/-- `(x0 + c) mod 64` (R191). -/
def column (x0 : Byte) (c : Nat) : Fin 64 := Fin.ofNat 64 (x0.toNat + c)

/-- `(y0 + r) mod 32` (R191). -/
def row (y0 : Byte) (r : Nat) : Fin 32 := Fin.ofNat 32 (y0.toNat + r)

/-- One row of the sprite: column c is bit 7 - c of its byte (R192). -/
def DrawState.drawRow (d : DrawState) (x0 y0 : Byte) (r : Nat) (bits : Byte) : DrawState :=
  (List.range 8).foldl (fun d c => if bits.getLsbD (7 - c) then d.draw (column x0 c) (row y0 r) else d) d

/-- The rows from r on, top to bottom. -/
def DrawState.drawRows (d : DrawState) (x0 y0 : Byte) : Nat → List Byte → DrawState
  | _, [] => d
  | r, bits :: rest => (d.drawRow x0 y0 r bits).drawRows x0 y0 (r + 1) rest

/-- A whole sprite on a display: what the display becomes, and whether a set pixel was unset. -/
def drawSprite (p : Display) (x0 y0 : Byte) (rows : List Byte) : DrawState :=
  DrawState.drawRows ⟨p, false⟩ x0 y0 0 rows

/-- 00E0 (R190). -/
def execCls (s : State) : Result := complete (s.setPix Display.clear)

/-- DXYN (R191): the coordinates are read, the sprite is read, and only then pixels and VF are written. -/
def execDrw (x y : Reg) (n : Nat) (s : State) : Result :=
  readAtI n s fun rows =>
    let d := drawSprite s.pix (s.getV x) (s.getV y) rows
    complete ((s.setPix d.pix).setV VF (flagByte d.hit))

end Sys2Proof.Machine
end

