-- ==== Sys2Proof/Machine/Flow.lean ====
section
/-! DEFINITION. Control transfer and the call stack (spec/41_flow.md R140 to R144). -/

namespace Sys2Proof.Machine

/-- 00EE (R140): pops the return address into pc as it is. -/
def execRet (s : State) : Result := checked s.pop fun (target, s') => jumpTo target s'

/-- 1NNN (R141). -/
def execJp (nnn : Addr12) (s : State) : Result := jumpTo (zextAddr nnn) s

/-- 2NNN (R142): pushes the address of the instruction after the call, and jumps. -/
def execCall (nnn : Addr12) (s : State) : Result := checked (s.push (s.pc + 2)) (jumpTo (zextAddr nnn))

/-- BNNN (R143): always V0; the sum has 16 bits and is not reduced. -/
def execJpV0 (nnn : Addr12) (s : State) : Result := jumpTo (zextAddr nnn + zextByte (s.getV V0)) s

end Sys2Proof.Machine
end

