-- ==== Sys2Proof/Machine/IndexMem.lean ====
section
/-! DEFINITION. The index register, loads and stores (spec/44_index_mem.md R180 to R186). -/

namespace Sys2Proof.Machine

/-- ANNN (R180). -/
def execLdI (nnn : Addr12) (s : State) : Result := complete (s.setI (zextAddr nnn))

/-- FX1E (R181): wraps in 16 bits, VF is left alone. -/
def execAddI (x : Reg) (s : State) : Result := complete (s.setI (s.i + zextByte (s.getV x)))

/-- FX29 (R182). -/
def execLdF (x : Reg) (s : State) : Result := complete (s.setI (glyphAddress (s.getV x)))

/-- FX33 (R183). -/
def execLdB (x : Reg) (s : State) : Result := storeAtI (bcdDigits (s.getV x)) s

/-- FX55 (R184). -/
def execStoreRegs (x : Reg) (s : State) : Result := storeAtI (s.regsUpTo x) s

/-- FX65 (R185). -/
def execLoadRegs (x : Reg) (s : State) : Result :=
  readAtI (x.val + 1) s fun bytes => complete (s.setRegs (fillRegs s.v 0 bytes))

end Sys2Proof.Machine
end

