-- ==== Sys2Proof/Machine/Skip.lean ====
section
/-! DEFINITION. The six conditional skips (spec/42_skip.md R150 to R156). -/

namespace Sys2Proof.Machine

/-- 3XNN (R150). -/
def execSeImm (x : Reg) (nn : Byte) (s : State) : Result := skipWhen (s.getV x == nn) s

/-- 4XNN (R151). -/
def execSneImm (x : Reg) (nn : Byte) (s : State) : Result := skipWhen (s.getV x != nn) s

/-- 5XY0 (R152). -/
def execSeReg (x y : Reg) (s : State) : Result := skipWhen (s.getV x == s.getV y) s

/-- 9XY0 (R153). -/
def execSneReg (x y : Reg) (s : State) : Result := skipWhen (s.getV x != s.getV y) s

/-- EX9E (R154): a level test of the key the low nibble of VX names. -/
def execSkp (x : Reg) (s : State) : Result := skipWhen s.key[keyOf (s.getV x)] s

/-- EXA1 (R155). -/
def execSknp (x : Reg) (s : State) : Result := skipWhen (!s.key[keyOf (s.getV x)]) s

end Sys2Proof.Machine
end

