-- ==== Sys2Proof/Machine/TimerKey.lean ====
section
/-! DEFINITION. Timer and keypad instructions (spec/46_timer_key.md R200 to R203). -/

namespace Sys2Proof.Machine

/-- FX07 (R200). -/
def execLdVxDt (x : Reg) (s : State) : Result := complete (s.setV x s.dt)

/-- FX0A (R201): the lowest pressed key, or, with no key down, a Step that changes nothing. -/
def execLdVxK (x : Reg) (s : State) : Result :=
  match lowestKey s.key with
  | some k => complete (s.setV x (keyByte k))
  | none => jumpTo s.pc s

/-- FX15 (R202). -/
def execLdDtVx (x : Reg) (s : State) : Result := complete (s.setDt (s.getV x))

/-- FX18 (R203). -/
def execLdStVx (x : Reg) (s : State) : Result := complete (s.setSt (s.getV x))

end Sys2Proof.Machine
end

