-- ==== Sys2Proof/Machine/Step.lean ====
section
/-! DEFINITION. The Step (spec/40_step_cycle.md R120): fetch, decode, execute and advance, one atomic transaction. Its
random byte comes from the supply beside CORE (log 1); Step(rand) on CORE alone is `stepWith` in
Machine/Transactions.lean. -/

namespace Sys2Proof.Machine

/-- One Step. The first failing stage ends it with its fault (R218); there is no other way out. -/
def step (s : State) : Host.Outcome State Fault Refusal :=
  checked (fetch s.core) fun op => checked (decodeStage op) fun i => exec i s

/-- The state with an instruction stored at pc, where the next Step fetches: its word's two bytes, big-endian. A pc
from which nothing can be fetched (4095 and above) has no place for it, and the state is as it was (log 5). -/
def State.withFetchWord (s : State) (nbits w : Nat) : State :=
  if s.pc.toNat + 2 > Config.memSize then s
  else s.setMem (s.mem.writeBytes s.pc.toNat [hiByte (tableWord nbits w), loByte (tableWord nbits w)])

end Sys2Proof.Machine
end

