-- ==== Sys2Proof/WellFormed.lean ====
section
/-! DEFINITION. What is well-formed: an instruction (its one operand that is a plain number), an instruction word (it
matches a row of the opcode map of spec/30_encoding.md R96, written here as masks and matches, apart from the
decoder), and a program image that Load takes (spec/70_reset_and_hazards.md R256). -/

namespace Sys2Proof

/-- Register indices, immediates and addresses are in range by their types; the sprite height N is a count and must
fit its four bits (R91, R93). -/
def Instr.wellFormed : Instr → Bool
  | .drw _ _ n => decide (n < 16)
  | .cls | .ret | .jp _ | .call _ | .seImm _ _ | .sneImm _ _ | .seReg _ _ | .ldImm _ _ | .addImm _ _
  | .ldReg _ _ | .orReg _ _ | .andReg _ _ | .xorReg _ _ | .addReg _ _ | .subReg _ _ | .shr _ _ | .subnReg _ _
  | .shl _ _ | .sneReg _ _ | .ldI _ | .jpV0 _ | .rnd _ _ | .skp _ | .sknp _ | .ldVxDt _ | .ldVxK _ | .ldDtVx _
  | .ldStVx _ | .addI _ | .ldF _ | .ldB _ | .storeRegs _ | .loadRegs _ => true

/-- A row of the opcode map: a word `op` is this instruction exactly when `op AND mask = match` (R96). -/
structure OpcodeRow where
  mask : Word
  bits : Word
  deriving DecidableEq, Repr

/-- Does the word match the row? -/
def OpcodeRow.matches (r : OpcodeRow) (op : Word) : Bool := op &&& r.mask == r.bits

/-- Rows 1 to 9 and 19 to 23 of R96: categories 0 to 7, 9, A to D. -/
def opcodeRowsPlain : List OpcodeRow :=
  [⟨0xFFFF, 0x00E0⟩, ⟨0xFFFF, 0x00EE⟩, ⟨0xF000, 0x1000⟩, ⟨0xF000, 0x2000⟩, ⟨0xF000, 0x3000⟩, ⟨0xF000, 0x4000⟩,
   ⟨0xF00F, 0x5000⟩, ⟨0xF000, 0x6000⟩, ⟨0xF000, 0x7000⟩, ⟨0xF00F, 0x9000⟩, ⟨0xF000, 0xA000⟩, ⟨0xF000, 0xB000⟩,
   ⟨0xF000, 0xC000⟩, ⟨0xF000, 0xD000⟩]

/-- Rows 10 to 18 of R96: category 8. -/
def opcodeRowsAlu : List OpcodeRow :=
  [⟨0xF00F, 0x8000⟩, ⟨0xF00F, 0x8001⟩, ⟨0xF00F, 0x8002⟩, ⟨0xF00F, 0x8003⟩, ⟨0xF00F, 0x8004⟩, ⟨0xF00F, 0x8005⟩,
   ⟨0xF00F, 0x8006⟩, ⟨0xF00F, 0x8007⟩, ⟨0xF00F, 0x800E⟩]

/-- Rows 24 to 34 of R96: categories E and F. -/
def opcodeRowsEF : List OpcodeRow :=
  [⟨0xF0FF, 0xE09E⟩, ⟨0xF0FF, 0xE0A1⟩, ⟨0xF0FF, 0xF007⟩, ⟨0xF0FF, 0xF00A⟩, ⟨0xF0FF, 0xF015⟩, ⟨0xF0FF, 0xF018⟩,
   ⟨0xF0FF, 0xF01E⟩, ⟨0xF0FF, 0xF029⟩, ⟨0xF0FF, 0xF033⟩, ⟨0xF0FF, 0xF055⟩, ⟨0xF0FF, 0xF065⟩]

/-- The opcode map: 34 rows (R96). -/
def opcodeRows : List OpcodeRow := opcodeRowsPlain ++ opcodeRowsAlu ++ opcodeRowsEF

/-- Does the word match a row of the opcode map (R95)? All other words are illegal (R99). -/
def wordWellFormed (op : Word) : Bool := opcodeRows.any fun r => r.matches op

/-- May Load take this byte sequence (R256)? -/
def imageWellFormed (bytes : List Byte) : Bool := decide (bytes.length ≤ Config.progMaxLen)

end Sys2Proof
end

