-- ==== Sys2Proof/Machine/Transactions.lean ====
section
/-! DEFINITION. The host's transactions (spec/60_exceptions.md R225 to R238, spec/70_reset_and_hazards.md R250 to R256):
Reset, Load, Step(rand), Tick, KeySet and the three views, each atomic; and the boot order of R254. -/

namespace Sys2Proof.Machine

/-- A countdown timer: held at 0, else down by 1 (R31, R225). -/
def countDown (b : Byte) : Byte := if b.toNat > 0 then BitVec.ofNat 8 (b.toNat - 1) else 0

/-- The Tick transaction: both timers, independently, and nothing else (R225). -/
def CoreState.tick (c : CoreState) : CoreState := { c with dt := countDown c.dt, st := countDown c.st }

/-- The KeySet transaction (R230). -/
def CoreState.keySet (c : CoreState) (k : KeyNum) (b : Bool) : CoreState := { c with key := c.key.set k b }

/-- The Load transaction on a byte sequence that is not too long (R255). -/
def CoreState.load (c : CoreState) (bytes : List Byte) : CoreState :=
  { c with mem := c.mem.writeBytes Config.progBase bytes }

/-- CORE about to run a Step with this byte as its input. -/
def CoreState.given (c : CoreState) (rand : Byte) : State where
  core   := c
  supply := { rand := some rand, draws := 0 }

/-- The spec's Step(rand) (R120): a function of CORE's state and of one byte from outside, and what it leaves is
CORE's state alone (R36). -/
def stepWith (rand : Byte) (c : CoreState) : Host.Outcome CoreState Fault Refusal :=
  match step (c.given rand) with
  | .next t => .next t.core
  | .fault f => .fault f
  | .refused r => .refused r

/-- The sound line, `ST != 0` (R229). -/
def CoreState.soundActive (c : CoreState) : Bool := c.st != 0

/-- The framebuffer view, `fb(x, y) = PIX[x][y]` (R232). -/
def CoreState.framebuffer (c : CoreState) (x : Fin 64) (y : Fin 32) : Bool := c.pix.pixel x y

/-- The debug view (R234). -/
structure DebugView where
  v         : Vector Byte 16
  i         : Word
  pc        : Word
  sp        : Fin 17
  stack     : Vector Word 16
  nextBytes : Option (Byte × Byte)
  dt        : Byte
  st        : Byte
  deriving DecidableEq, Repr

/-- The debug view of a state; the two bytes at pc are none when pc is 4095 or more (R234). -/
def CoreState.debug (c : CoreState) : DebugView where
  v := c.v
  i := c.i
  pc := c.pc
  sp := c.sp
  stack := c.stack
  nextBytes :=
    if c.pc.toNat + 2 > Config.memSize then none
    else some (c.mem.read c.pc.toNat, c.mem.read (c.pc.toNat + 1))
  dt := c.dt
  st := c.st

/-- What the host may do (R238). -/
inductive Transaction where
  | reset
  | load (bytes : List Byte)
  | step (rand : Byte)
  | tick
  | keySet (k : KeyNum) (b : Bool)
  | readFramebuffer
  | readDebug
  | readSound
  deriving DecidableEq, Repr

/-- What a transaction answers the host: a Step answers Ok or one fault (R128), a view its contents, and a move that
the spec leaves without a meaning is refused by name. -/
inductive Response where
  | done
  | ok
  | fault (f : Fault)
  | framebuffer (p : Display)
  | debug (d : DebugView)
  | sound (active : Bool)
  | refused (r : Refusal)
  deriving DecidableEq, Repr

/-- The core with its host: before the first Reset there is no state to speak of; after it, `loadable` says whether
the one Load may still come (R254, R256; log 6). -/
inductive Session where
  | beforeReset
  | running (loadable : Bool) (c : CoreState)
  deriving DecidableEq, Repr

/-- One Step of a session: a fault leaves the state as it was, and the core takes the next transaction all the same
(R214, R220). -/
def Session.stepOnce (rand : Byte) (c : CoreState) : Session × Response :=
  match stepWith rand c with
  | .next t => (.running false t, .ok)
  | .fault f => (.running false c, .fault f)
  | .refused r => (.running false c, .refused r)

/-- The Load of a session (R255, R256): refused as a whole when it is out of turn or too long. -/
def Session.loadOnce (loadable : Bool) (bytes : List Byte) (c : CoreState) : Session × Response :=
  if loadable = false then (.running loadable c, .refused .loadOutOfTurn)
  else if imageWellFormed bytes = false then (.running loadable c, .refused .loadTooLong)
  else (.running false (c.load bytes), .done)

/-- One transaction, atomic (R236): what the core is after it, and what the host is answered. The order of
transactions is the host's (R227, R236; log 4). -/
def Session.transact : Session → Transaction → Session × Response
  | .beforeReset, .reset => (.running true CoreState.reset, .done)
  | .beforeReset, .load _ => (.beforeReset, .refused .beforeReset)
  | .beforeReset, .step _ => (.beforeReset, .refused .beforeReset)
  | .beforeReset, .tick => (.beforeReset, .refused .beforeReset)
  | .beforeReset, .keySet _ _ => (.beforeReset, .refused .beforeReset)
  | .beforeReset, .readFramebuffer => (.beforeReset, .refused .beforeReset)
  | .beforeReset, .readDebug => (.beforeReset, .refused .beforeReset)
  | .beforeReset, .readSound => (.beforeReset, .refused .beforeReset)
  | .running _ _, .reset => (.running true CoreState.reset, .done)
  | .running loadable c, .load bytes => Session.loadOnce loadable bytes c
  | .running _ c, .step rand => Session.stepOnce rand c
  | .running loadable c, .tick => (.running loadable c.tick, .done)
  | .running loadable c, .keySet k b => (.running loadable (c.keySet k b), .done)
  | .running loadable c, .readFramebuffer => (.running loadable c, .framebuffer c.pix)
  | .running loadable c, .readDebug => (.running loadable c, .debug c.debug)
  | .running loadable c, .readSound => (.running loadable c, .sound c.soundActive)

end Sys2Proof.Machine
end

