-- ==== Sys2Proof/Safety.lean ====
section
/-! DEFINITION. What counts as a safe state and a safe run, in the terms claims use: the invariant of the machine, a
Step that reports no fault, and the open END_OF_RUN (spec/10_state.md R28, R30; spec/70_reset_and_hazards.md R260,
R263). -/

namespace Sys2Proof.Machine

/-- What every Step keeps: memory is in canonical form; pc never passes 0x10FE, "the largest value any rule can
produce" (R28); a return address never passes 0x1000 (R142). SP is in 0..16 by its type (R30). -/
structure Inv (c : CoreState) : Prop where
  mem_wf   : c.mem.wf
  pc_le    : c.pc.toNat ≤ 0x10FE
  stack_le : ∀ k : Fin 16, c.stack[k].toNat ≤ 0x1000

/-- The Step of this state reports no fault (R260). -/
def StepSafe (s : State) : Prop := ∃ t, step s = .next t

/-- The suggested end of a run, left open by the spec: pc addresses a `1NNN` whose NNN is pc (R263; log 7). -/
def AtSelfJump (c : CoreState) : Prop := ∃ nnn : Addr12, fetch c = .ok (formatA 0x1 nnn) ∧ zextAddr nnn = c.pc

end Sys2Proof.Machine
end

