-- ==== Sys2Proof/Certificates/Slice0/Obligations.lean ====
section
/-! DEFINITION. The statements for the provers: what the rules of spec/ say the machine does, over every state and every
operand. The tables of the first part (which register an instruction writes, where it stores, where it goes, when it
faults) are written from the rules' own tables, apart from the meanings. -/

namespace Sys2Proof.Claim

open Sys2Proof.Machine

/-! ### Tables read from the spec -/

/-- R23: the general registers an instruction writes, the flag write among them. -/
def writesReg : Instr → Reg → Bool
  | .cls, _ | .ret, _ | .jp _, _ | .call _, _ | .ldI _, _ | .jpV0 _, _ => false
  | .seImm _ _, _ | .sneImm _ _, _ | .seReg _ _, _ | .sneReg _ _, _ | .skp _, _ | .sknp _, _ => false
  | .ldImm x _, r | .addImm x _, r | .rnd x _, r => r = x
  | .ldReg x _, r | .orReg x _, r | .andReg x _, r | .xorReg x _, r => r = x
  | .addReg x _, r | .subReg x _, r | .shr x _, r | .subnReg x _, r | .shl x _, r => r = x || r = VF
  | .drw _ _ _, r => r = VF
  | .ldVxDt x, r | .ldVxK x, r => r = x
  | .ldDtVx _, _ | .ldStVx _, _ | .addI _, _ | .ldF _, _ | .ldB _, _ | .storeRegs _, _ => false
  | .loadRegs x, r => r ≤ x

/-- R26: the three instructions that write I. -/
def writesIndex : Instr → Bool
  | .ldI _ | .addI _ | .ldF _ => true
  | .cls | .ret | .jp _ | .call _ | .seImm _ _ | .sneImm _ _ | .seReg _ _ | .ldImm _ _ | .addImm _ _
  | .ldReg _ _ | .orReg _ _ | .andReg _ _ | .xorReg _ _ | .addReg _ _ | .subReg _ _ | .shr _ _ | .subnReg _ _
  | .shl _ _ | .sneReg _ _ | .jpV0 _ | .rnd _ _ | .drw _ _ _ | .skp _ | .sknp _ | .ldVxDt _ | .ldVxK _ | .ldDtVx _
  | .ldStVx _ | .ldB _ | .storeRegs _ | .loadRegs _ => false

/-- R68: the bytes an instruction stores to, as a start address and a length (0 for one that stores nothing). -/
def storedRange : Instr → State → Nat × Nat
  | .ldB _, s => (s.i12, 3)
  | .storeRegs x, s => (s.i12, x.val + 1)
  | .cls, _ | .ret, _ | .jp _, _ | .call _, _ | .seImm _ _, _ | .sneImm _ _, _ | .seReg _ _, _ | .ldImm _ _, _
  | .addImm _ _, _ | .ldReg _ _, _ | .orReg _ _, _ | .andReg _ _, _ | .xorReg _ _, _ | .addReg _ _, _
  | .subReg _ _, _ | .shr _ _, _ | .subnReg _ _, _ | .shl _ _, _ | .sneReg _ _, _ | .ldI _, _ | .jpV0 _, _
  | .rnd _ _, _ | .drw _ _ _, _ | .skp _, _ | .sknp _, _ | .ldVxDt _, _ | .ldVxK _, _ | .ldDtVx _, _
  | .ldStVx _, _ | .addI _, _ | .ldF _, _ | .loadRegs _, _ => (0, 0)

/-- R127: `pc + 2`, or `pc + 4` when a skip's condition holds. -/
def skipPc (c : Bool) (s : State) : Word := bif c then s.pc + 4 else s.pc + 2

/-- Is the key the low nibble of VX names pressed (R154)? -/
def keyDown (s : State) (x : Reg) : Bool := s.key[s.v[x].toNat % 16]'(Nat.mod_lt _ (by decide))

/-- R127: `next_pc` for every instruction that does not fault. -/
def nextPc : Instr → State → Word
  | .cls, s | .ldImm _ _, s | .addImm _ _, s | .ldReg _ _, s | .orReg _ _, s | .andReg _ _, s | .xorReg _ _, s
  | .addReg _ _, s | .subReg _ _, s | .shr _ _, s | .subnReg _ _, s | .shl _ _, s | .ldI _, s | .rnd _ _, s
  | .drw _ _ _, s | .ldVxDt _, s | .ldDtVx _, s | .ldStVx _, s | .addI _, s | .ldF _, s | .ldB _, s
  | .storeRegs _, s | .loadRegs _, s => s.pc + 2
  | .seImm x nn, s => skipPc (s.v[x] = nn) s
  | .sneImm x nn, s => skipPc (s.v[x] ≠ nn) s
  | .seReg x y, s => skipPc (s.v[x] = s.v[y]) s
  | .sneReg x y, s => skipPc (s.v[x] ≠ s.v[y]) s
  | .skp x, s => skipPc (keyDown s x) s
  | .sknp x, s => skipPc (!keyDown s x) s
  | .jp nnn, _ | .call nnn, _ => BitVec.ofNat 16 nnn.toNat
  | .jpV0 nnn, s => BitVec.ofNat 16 (nnn.toNat + s.v[V0].toNat)
  | .ret, s => s.stack[s.sp.val - 1]'(by omega)
  | .ldVxK _, s => if ∃ k : KeyNum, s.key[k] = true then s.pc + 2 else s.pc

/-- R211, R213, R215: the one check of an instruction, and the fault when it fails. -/
def faultOf : Instr → State → Option Fault
  | .ret, s => if s.sp.val = 0 then some .stackUnderflow else none
  | .call _, s => if s.sp.val = 16 then some .stackOverflow else none
  | .drw _ _ n, s => if s.i12 + n > 4096 then some (.addressOutOfRange s.i12 n) else none
  | .ldB _, s => if s.i12 > 4093 then some (.addressOutOfRange s.i12 3) else none
  | .storeRegs x, s => if s.i12 + x.val > 4095 then some (.addressOutOfRange s.i12 (x.val + 1)) else none
  | .loadRegs x, s => if s.i12 + x.val > 4095 then some (.addressOutOfRange s.i12 (x.val + 1)) else none
  | .cls, _ | .jp _, _ | .seImm _ _, _ | .sneImm _ _, _ | .seReg _ _, _ | .ldImm _ _, _ | .addImm _ _, _
  | .ldReg _ _, _ | .orReg _ _, _ | .andReg _ _, _ | .xorReg _ _, _ | .addReg _ _, _ | .subReg _ _, _ | .shr _ _, _
  | .subnReg _ _, _ | .shl _ _, _ | .sneReg _ _, _ | .ldI _, _ | .jpV0 _, _ | .rnd _ _, _ | .skp _, _ | .sknp _, _
  | .ldVxDt _, _ | .ldVxK _, _ | .ldDtVx _, _ | .ldStVx _, _ | .addI _, _ | .ldF _, _ => none

/-- R191, R192: the sprite of n rows at I12 lights the pixel (px, py): row r, column c of it is there, and bit 7 - c of
byte r is 1. -/
def Lights (s : State) (x y : Reg) (n : Nat) (px : Fin 64) (py : Fin 32) : Prop :=
  ∃ r c : Nat, r < n ∧ c < 8 ∧ (s.mem.read (s.i12 + r)).getLsbD (7 - c) = true ∧
    px.val = (s.v[x].toNat + c) % 64 ∧ py.val = (s.v[y].toNat + r) % 32

/-- The registers after an instruction with a result to VX and a flag to VF, the flag written last, so that it stays
when X = 15 (R125). -/
def FlagResult (s : State) (x : Reg) (res flag : Nat) (v' : Vector Byte 16) : Prop :=
  ∀ r : Reg, v'[r] = if r = VF then BitVec.ofNat 8 flag else if r = x then BitVec.ofNat 8 res else s.v[r]

/-- An answer with something made of the next state, if there is one. -/
def mapNext {α β : Type} (f : α → β) : Host.Outcome α Fault Refusal → Host.Outcome β Fault Refusal
  | .next t => .next (f t)
  | .fault e => .fault e
  | .refused r => .refused r

/-- n Tick transactions in a row. -/
def ticks : Nat → CoreState → CoreState
  | 0, c => c
  | n + 1, c => ticks n c.tick

end Sys2Proof.Claim

open Sys2Proof Sys2Proof.Machine Sys2Proof.Claim

/-! ### Reset, Load and the boot order -/

/-- R38, R250: what Reset leaves in every component; the glyph bytes are the parameter GLYPHS, whatever it is. -/
def Obligations.ResetLeavesEveryComponentAtItsValue : Prop :=
  (∀ r : Reg, State.reset.v[r] = 0) ∧ State.reset.i = 0 ∧ State.reset.pc = 0x200 ∧
  (∀ k : Fin 16, State.reset.stack[k] = 0) ∧ State.reset.sp = 0 ∧ State.reset.dt = 0 ∧ State.reset.st = 0 ∧
  (∀ a, a ≤ 0x04F → State.reset.mem.read a = Config.glyphByte a) ∧
  (∀ a, 0x050 ≤ a → a ≤ 0xFFF → State.reset.mem.read a = 0) ∧
  (∀ k : KeyNum, State.reset.key[k] = false) ∧ ∀ x y, State.reset.pix.pixel x y = false

/-- R250 to R252: the Reset transaction, before or during a run, leaves CORE exactly as Reset leaves it, whatever the
state was. -/
def Obligations.ResetTransactionHasItsFullEffectAtAnyTime : Prop :=
  Session.transact .beforeReset .reset = (.running true State.reset.core, .done) ∧
  ∀ b c, Session.transact (.running b c) .reset = (.running true State.reset.core, .done)

/-- R255: Load writes its bytes verbatim from 0x200 and nothing else. -/
def Obligations.LoadPlacesBytesVerbatimAndNothingElse : Prop :=
  ∀ (c : CoreState) (bytes : List Byte), bytes.length ≤ 3584 →
    ∃ m' : Memory, Session.transact (.running true c) (.load bytes) = (.running false { c with mem := m' }, .done) ∧
      (∀ k, ∀ h : k < bytes.length, m'.read (0x200 + k) = bytes[k]) ∧
      ∀ a, a < 0x200 ∨ 0x200 + bytes.length ≤ a → m'.read a = c.mem.read a

/-- R256, R238 (with log 6): a Load that is too long, a second Load, a Load after a Step, and any transaction before the
first Reset leave everything as it was and are refused. -/
def Obligations.MovesWithoutMeaningAreRefusedAndChangeNothing : Prop :=
  (∀ s bytes, 3584 < bytes.length → Session.transact (.running true s) (.load bytes) =
    (.running true s, .refused .loadTooLong)) ∧
  (∀ s bytes, Session.transact (.running false s) (.load bytes) = (.running false s, .refused .loadOutOfTurn)) ∧
  (∀ b s r, ∃ t, (Session.transact (.running b s) (.step r)).1 = .running false t) ∧
  ∀ tx, tx ≠ .reset → Session.transact .beforeReset tx = (.beforeReset, .refused .beforeReset)

/-! ### Fetch, decode, Step -/

/-- R67, R121: the fetch reads the two bytes at the whole, unmasked pc, the first one the more significant; at pc 4095
and above it fails, and so does the Step. -/
def Obligations.FetchReadsTwoBytesAtPcAndNeverPast4095 : Prop :=
  ∀ s : State,
    (s.pc.toNat ≤ 4094 → ∃ op, fetch s.core = .ok op ∧
      op.toNat = (s.mem.read s.pc.toNat).toNat * 256 + (s.mem.read (s.pc.toNat + 1)).toNat) ∧
    (4095 ≤ s.pc.toNat → fetch s.core = .error (.addressOutOfRange s.pc.toNat 2) ∧
      step s = .fault (.addressOutOfRange s.pc.toNat 2))

/-- R120: when the bytes at pc decode to a well-formed instruction, the Step is that instruction at that state: pc is
still the address of the instruction, and the instruction itself writes next_pc. -/
def Obligations.StepRunsTheInstructionTheBytesAtPcDecodeTo : Prop :=
  ∀ (s : State) (i : Instr), s.pc.toNat + 2 ≤ 4096 →
    decodeBytes [s.mem.read s.pc.toNat, s.mem.read (s.pc.toNat + 1)] = .ok (i, []) → i.wellFormed = true →
    step s = exec i s

/-- R212, R99: a Step reports UnknownOpcode exactly when it fetched a word that no row of the opcode map matches, and it
carries that word. -/
def Obligations.UnknownOpcodeExactlyForTheWordsOfNoRow : Prop :=
  ∀ (s : State) (op : Word), step s = .fault (.unknownOpcode op) ↔ fetch s.core = .ok op ∧ wordWellFormed op = false

/-- R95, R97: the decoder answers exactly for the words of the opcode map, whose 34 rows do not overlap; executing any
other word raises UnknownOpcode. -/
def Obligations.DecoderAnswersExactlyForTheOpcodeMap : Prop :=
  (∀ op : Word, (decodeWord op).isSome = wordWellFormed op) ∧ opcodeRows.length = 34 ∧
  (opcodeRows.Pairwise fun a b => ∀ op, a.matches op = true → b.matches op = false) ∧
  ∀ (s : State) (op : Word), fetch s.core = .ok op → wordWellFormed op = false → step s = .fault (.unknownOpcode op)

/-- R92, R96: decoding what the encoder writes gives the instruction back, as a word and as bytes in memory order. -/
def Obligations.DecodeOfEncodeIsTheInstruction : Prop :=
  ∀ i : Instr, i.wellFormed = true →
    decodeWord (encode i) = some i ∧ ∀ rest, decodeBytes (encodeBytes i ++ rest) = .ok (i, rest)

/-- R92, R96: every word that decodes is the encoding of what it decodes to, and that is well-formed: no bit of a word
is dropped. -/
def Obligations.EncodeOfDecodeIsTheWord : Prop :=
  ∀ (op : Word) (i : Instr), decodeWord op = some i → encode i = op ∧ i.wellFormed = true

/-- Words written out from R96, and what each stands for (vectors TE1 to TE14 of 95_test_vectors.md). -/
def Obligations.WordsOfTheTestVectorsDecode : Prop :=
  decodeWord 0x00E0 = some .cls ∧ decodeWord 0x00EE = some .ret ∧ decodeWord 0x1ABC = some (.jp 0xABC) ∧
  decodeWord 0x3A7F = some (.seImm 0xA 0x7F) ∧ decodeWord 0x5AB0 = some (.seReg 0xA 0xB) ∧
  decodeWord 0x8AB6 = some (.shr 0xA 0xB) ∧ decodeWord 0xDAB5 = some (.drw 0xA 0xB 5) ∧
  decodeWord 0xEA9E = some (.skp 0xA) ∧ decodeWord 0xFA65 = some (.loadRegs 0xA) ∧
  decodeWord 0xBFFF = some (.jpV0 0xFFF) ∧ decodeWord 0x0000 = none ∧ decodeWord 0x5121 = none ∧
  decodeWord 0x8128 = none ∧ decodeWord 0xF10B = none

/-- R123, R129: there is no "not implemented" path: a Step is Ok or a fault, never a refusal. -/
def Obligations.EveryStepIsOkOrAFault : Prop :=
  ∀ s : State, (∃ t, step s = .next t) ∨ ∃ f, step s = .fault f

/-! ### Control transfer -/

/-- R140, R215. -/
def Obligations.ReturnPopsThePcOrUnderflows : Prop :=
  ∀ s : State,
    (s.sp.val = 0 → exec .ret s = .fault .stackUnderflow) ∧
    ∀ h : 0 < s.sp.val, exec .ret s =
      .next { s with pc := s.stack[s.sp.val - 1]'(by omega), sp := ⟨s.sp.val - 1, by omega⟩ }

/-- R142, R213: the entry pushed is `pc + 2`. -/
def Obligations.CallPushesTheReturnAddressOrOverflows : Prop :=
  ∀ (s : State) (nnn : Addr12),
    (s.sp.val = 16 → exec (.call nnn) s = .fault .stackOverflow) ∧
    ∀ h : s.sp.val < 16, exec (.call nnn) s =
      .next { s with stack := s.stack.set s.sp.val (s.pc + 2) h, sp := ⟨s.sp.val + 1, by omega⟩,
                     pc := BitVec.ofNat 16 nnn.toNat }

/-- R141, R143: the sum of BNNN is not reduced to 12 bits and never wraps 16. -/
def Obligations.JumpsSetPcAndNothingElse : Prop :=
  ∀ (s : State) (nnn : Addr12),
    exec (.jp nnn) s = .next { s with pc := BitVec.ofNat 16 nnn.toNat } ∧
    ∃ target : Word, exec (.jpV0 nnn) s = .next { s with pc := target } ∧ target.toNat = nnn.toNat + s.v[V0].toNat

/-- R140, R142, example S4: a return right after a call resumes after the call with SP as before, whatever pc has
become; the popped slot keeps its value. -/
def Obligations.ReturnUndoesCall : Prop :=
  ∀ (s t : State) (nnn : Addr12) (w : Word), exec (.call nnn) s = .next t →
    exec .ret { t with pc := w } = .next { t with pc := s.pc + 2, sp := s.sp }

/-! ### Skips -/

/-- R150 to R153. -/
def Obligations.RegisterSkipsTestAndMoveOnlyPc : Prop :=
  ∀ (s : State) (x y : Reg) (nn : Byte),
    exec (.seImm x nn) s = .next { s with pc := if s.v[x] = nn then s.pc + 4 else s.pc + 2 } ∧
    exec (.sneImm x nn) s = .next { s with pc := if s.v[x] ≠ nn then s.pc + 4 else s.pc + 2 } ∧
    exec (.seReg x y) s = .next { s with pc := if s.v[x] = s.v[y] then s.pc + 4 else s.pc + 2 } ∧
    exec (.sneReg x y) s = .next { s with pc := if s.v[x] ≠ s.v[y] then s.pc + 4 else s.pc + 2 }

/-- R154, R155: the low nibble of VX names the key. -/
def Obligations.KeySkipsTestTheKeyOfTheLowNibble : Prop :=
  ∀ (s : State) (x : Reg) (k : KeyNum), k.val = s.v[x].toNat % 16 →
    exec (.skp x) s = .next { s with pc := if s.key[k] = true then s.pc + 4 else s.pc + 2 } ∧
    exec (.sknp x) s = .next { s with pc := if s.key[k] = false then s.pc + 4 else s.pc + 2 }

/-! ### Register loads and the ALU -/

/-- R160, R162 to R165: no flag. -/
def Obligations.LoadsAndLogicWriteVxAndNoFlag : Prop :=
  ∀ (s : State) (x y : Reg) (nn : Byte),
    exec (.ldImm x nn) s = .next { s with v := s.v.set x nn, pc := s.pc + 2 } ∧
    exec (.ldReg x y) s = .next { s with v := s.v.set x s.v[y], pc := s.pc + 2 } ∧
    exec (.orReg x y) s = .next { s with v := s.v.set x (s.v[x] ||| s.v[y]), pc := s.pc + 2 } ∧
    exec (.andReg x y) s = .next { s with v := s.v.set x (s.v[x] &&& s.v[y]), pc := s.pc + 2 } ∧
    exec (.xorReg x y) s = .next { s with v := s.v.set x (s.v[x] ^^^ s.v[y]), pc := s.pc + 2 }

/-- R161: wraps modulo 256, and VF is an ordinary register here. -/
def Obligations.AddImmediateWrapsAndLeavesVF : Prop :=
  ∀ (s : State) (x : Reg) (nn : Byte), ∃ v' : Vector Byte 16,
    exec (.addImm x nn) s = .next { s with v := v', pc := s.pc + 2 } ∧
    v'[x].toNat = (s.v[x].toNat + nn.toNat) % 256 ∧ ∀ r : Reg, r ≠ x → v'[r] = s.v[r]

/-- R166, for every X and Y, X = 15 and Y = 15 among them. -/
def Obligations.AddRegistersGivesSumAndCarry : Prop :=
  ∀ (s : State) (x y : Reg), ∃ v' : Vector Byte 16,
    exec (.addReg x y) s = .next { s with v := v', pc := s.pc + 2 } ∧
    FlagResult s x ((s.v[x].toNat + s.v[y].toNat) % 256) (if s.v[x].toNat + s.v[y].toNat > 255 then 1 else 0) v'

/-- R167, R169. -/
def Obligations.SubtractionsGiveDifferenceAndNoBorrow : Prop :=
  ∀ (s : State) (x y : Reg),
    (∃ v' : Vector Byte 16, exec (.subReg x y) s = .next { s with v := v', pc := s.pc + 2 } ∧
      FlagResult s x ((s.v[x].toNat + 256 - s.v[y].toNat) % 256) (if s.v[x].toNat ≥ s.v[y].toNat then 1 else 0) v') ∧
    ∃ v' : Vector Byte 16, exec (.subnReg x y) s = .next { s with v := v', pc := s.pc + 2 } ∧
      FlagResult s x ((s.v[y].toNat + 256 - s.v[x].toNat) % 256) (if s.v[y].toNat ≥ s.v[x].toNat then 1 else 0) v'

/-- R168, R170: VX alone is shifted, whatever the Y field holds. -/
def Obligations.ShiftsGiveResultAndBitShiftedOut : Prop :=
  ∀ (s : State) (x y : Reg),
    (∃ v' : Vector Byte 16, exec (.shr x y) s = .next { s with v := v', pc := s.pc + 2 } ∧
      FlagResult s x (s.v[x].toNat / 2) (s.v[x].toNat % 2) v') ∧
    ∃ v' : Vector Byte 16, exec (.shl x y) s = .next { s with v := v', pc := s.pc + 2 } ∧
      FlagResult s x (s.v[x].toNat * 2 % 256) (s.v[x].toNat / 128) v'

/-- R173: for every byte the host supplies, a Step of CXNN gives that byte AND NN; every register but VX and every other
component but pc is unchanged. Every other Step ignores the byte: one of another instruction, of a word that is none, and
one whose fetch faults. -/
def Obligations.RandomStepMasksTheSuppliedByte : Prop :=
  ∀ (c : CoreState) (rand : Byte),
    (∀ (x : Reg) (nn : Byte), fetch c = .ok (encode (.rnd x nn)) →
      stepWith rand c = .next { c with v := c.v.set x (rand &&& nn), pc := c.pc + 2 }) ∧
    ((∀ x nn, fetch c ≠ .ok (encode (.rnd x nn))) → ∀ rand', stepWith rand c = stepWith rand' c)

/-- CXNN completes in every state with the byte supplied to it, whatever that is, and takes it from the supply, which
stands outside CORE (log 1): the byte the host named, or a free value. -/
def Obligations.RandomCompletesWithTheDrawOfTheState : Prop :=
  ∀ (s : State) (x : Reg) (nn : Byte),
    exec (.rnd x nn) s =
      .next { s with v := s.v.set x ((s.supply.rand.getD (Config.randByte s.supply.draws)) &&& nn), pc := s.pc + 2,
                     supply := { rand := none, draws := s.supply.draws + 1 } }

/-- R173, R36: neither the outcome of an instruction other than CXNN nor anything it writes depends on the supply of
random bytes, and it leaves the supply alone. -/
def Obligations.OtherInstructionsIgnoreTheRandomByte : Prop :=
  ∀ (i : Instr) (s : State) (p : RandomSupply), (∀ x nn, i ≠ .rnd x nn) →
    exec i { s with supply := p } = mapNext (fun t => { t with supply := p }) (exec i s)

/-! ### The index register, loads and stores -/

/-- R180 to R182. -/
def Obligations.IndexInstructionsSetI : Prop :=
  ∀ (s : State) (nnn : Addr12) (x : Reg),
    exec (.ldI nnn) s = .next { s with i := BitVec.ofNat 16 nnn.toNat, pc := s.pc + 2 } ∧
    exec (.addI x) s = .next { s with i := BitVec.ofNat 16 ((s.i.toNat + s.v[x].toNat) % 65536), pc := s.pc + 2 } ∧
    ∃ w : Word, exec (.ldF x) s = .next { s with i := w, pc := s.pc + 2 } ∧ w.toNat = s.v[x].toNat * 5

/-- R183: the three decimal digits, or a fault that writes nothing. -/
def Obligations.StoreDigitsWritesHundredsTensOnes : Prop :=
  ∀ (s : State) (x : Reg),
    (s.i12 ≤ 4093 → ∃ m' : Memory, exec (.ldB x) s = .next { s with mem := m', pc := s.pc + 2 } ∧
      (m'.read s.i12).toNat = s.v[x].toNat / 100 ∧ (m'.read (s.i12 + 1)).toNat = s.v[x].toNat / 10 % 10 ∧
      (m'.read (s.i12 + 2)).toNat = s.v[x].toNat % 10 ∧
      ∀ a, a < s.i12 ∨ s.i12 + 3 ≤ a → m'.read a = s.mem.read a) ∧
    (4093 < s.i12 → exec (.ldB x) s = .fault (.addressOutOfRange s.i12 3))

/-- R184. -/
def Obligations.StoreRegistersWritesV0ToVx : Prop :=
  ∀ (s : State) (x : Reg),
    (s.i12 + x.val ≤ 4095 → ∃ m' : Memory, exec (.storeRegs x) s = .next { s with mem := m', pc := s.pc + 2 } ∧
      (∀ k : Reg, k ≤ x → m'.read (s.i12 + k.val) = s.v[k]) ∧
      ∀ a, a < s.i12 ∨ s.i12 + x.val + 1 ≤ a → m'.read a = s.mem.read a) ∧
    (4095 < s.i12 + x.val → exec (.storeRegs x) s = .fault (.addressOutOfRange s.i12 (x.val + 1)))

/-- R185: each register its own offset. -/
def Obligations.LoadRegistersReadsV0ToVx : Prop :=
  ∀ (s : State) (x : Reg),
    (s.i12 + x.val ≤ 4095 → ∃ v' : Vector Byte 16, exec (.loadRegs x) s = .next { s with v := v', pc := s.pc + 2 } ∧
      (∀ k : Reg, k ≤ x → v'[k] = s.mem.read (s.i12 + k.val)) ∧ ∀ k : Reg, x < k → v'[k] = s.v[k]) ∧
    (4095 < s.i12 + x.val → exec (.loadRegs x) s = .fault (.addressOutOfRange s.i12 (x.val + 1)))

/-- R184, R185, R186: what FX55 stored, FX65 with the same X and I brings back, whatever the registers have become; the
registers above VX stay. -/
def Obligations.LoadRegistersUndoesStoreRegisters : Prop :=
  ∀ (s t : State) (x : Reg) (v' : Vector Byte 16), exec (.storeRegs x) s = .next t →
    ∃ u, exec (.loadRegs x) { t with v := v' } = .next u ∧
      (∀ k : Reg, k ≤ x → u.v[k] = s.v[k]) ∧ ∀ k : Reg, x < k → u.v[k] = v'[k]

/-- R75: a program may store its own next instruction: FX55 over the two bytes after it, and the next fetch reads V0 and
V1. -/
def Obligations.StoredInstructionIsFetchedNext : Prop :=
  ∀ (s t : State) (x : Reg), exec (.storeRegs x) s = .next t → 1 ≤ x.val → s.i12 = s.pc.toNat + 2 →
    fetch t.core = .ok (be16 s.v[(0 : Reg)] s.v[(1 : Reg)])

/-! ### Display -/

/-- R190. -/
def Obligations.ClearUnsetsEveryPixelAndKeepsVF : Prop :=
  ∀ s : State, ∃ p' : Display, exec .cls s = .next { s with pix := p', pc := s.pc + 2 } ∧
    ∀ x y, p'.pixel x y = false

/-- R191: every pixel is XORed with whether the sprite lights it, VF is whether a lit pixel was set, and nothing else
changes; a sprite that runs off memory is a fault. -/
def Obligations.DrawXorsTheSpriteAndReportsCollision : Prop :=
  ∀ (s : State) (x y : Reg) (n : Nat), n < 16 →
    (s.i12 + n ≤ 4096 → ∃ (p' : Display) (f : Byte),
      exec (.drw x y n) s = .next { s with pix := p', v := s.v.set VF f, pc := s.pc + 2 } ∧
      (∀ px py, p'.pixel px py = true ↔ ¬ (s.pix.pixel px py = true ↔ Lights s x y n px py)) ∧
      ((∃ px py, Lights s x y n px py ∧ s.pix.pixel px py = true) → f = 1) ∧
      ((¬ ∃ px py, Lights s x y n px py ∧ s.pix.pixel px py = true) → f = 0)) ∧
    (4096 < s.i12 + n → exec (.drw x y n) s = .fault (.addressOutOfRange s.i12 n))

/-- R191 (f): drawing the same sprite at the same place again restores the display, and the second draw collides exactly
when the first one set a pixel. The place is the same when neither coordinate register is VF, which the first draw
writes. -/
def Obligations.DrawingTwiceRestoresTheDisplay : Prop :=
  ∀ (s t : State) (x y : Reg) (n : Nat) (w : Word), n < 16 → x ≠ VF → y ≠ VF → exec (.drw x y n) s = .next t →
    ∃ u, exec (.drw x y n) { t with pc := w } = .next u ∧ u.pix = s.pix ∧
      (u.v[VF] = 1 ↔ ∃ px py, s.pix.pixel px py = false ∧ t.pix.pixel px py = true)

/-! ### Timers and keypad -/

/-- R200, R202, R203. -/
def Obligations.TimerInstructionsMoveOneByte : Prop :=
  ∀ (s : State) (x : Reg),
    exec (.ldVxDt x) s = .next { s with v := s.v.set x s.dt, pc := s.pc + 2 } ∧
    exec (.ldDtVx x) s = .next { s with dt := s.v[x], pc := s.pc + 2 } ∧
    exec (.ldStVx x) s = .next { s with st := s.v[x], pc := s.pc + 2 }

/-- R201: the smallest pressed key, or a Step that changes nothing at all. -/
def Obligations.KeyWaitTakesTheLowestKeyOrChangesNothing : Prop :=
  ∀ (s : State) (x : Reg),
    (∀ k : KeyNum, s.key[k] = true → (∀ j : KeyNum, j < k → s.key[j] = false) →
      exec (.ldVxK x) s = .next { s with v := s.v.set x (BitVec.ofNat 8 k.val), pc := s.pc + 2 }) ∧
    ((∀ k : KeyNum, s.key[k] = false) → exec (.ldVxK x) s = .next s)

/-! ### Frames and whole-machine rules -/

/-- R23, R25: a general register that R23's table does not list for the instruction is unchanged; in particular VF
changes only in the six flag writers or as an ordinary destination. -/
def Obligations.OnlyTheListedRegistersChange : Prop :=
  ∀ (i : Instr) (s t : State) (r : Reg), exec i s = .next t → writesReg i r = false → t.v[r] = s.v[r]

/-- R24: after a flag writer VF is 0 or 1, with the value of R24's table. -/
def Obligations.FlagWritersLeaveTheFlagOfTheTable : Prop :=
  ∀ (s t : State) (x y : Reg),
    (exec (.addReg x y) s = .next t → (t.v[VF] = 1 ∧ s.v[x].toNat + s.v[y].toNat > 255) ∨
      (t.v[VF] = 0 ∧ s.v[x].toNat + s.v[y].toNat ≤ 255)) ∧
    (exec (.subReg x y) s = .next t → (t.v[VF] = 1 ∧ s.v[x] ≥ s.v[y]) ∨ (t.v[VF] = 0 ∧ s.v[x] < s.v[y])) ∧
    (exec (.shr x y) s = .next t → t.v[VF].toNat = s.v[x].toNat % 2) ∧
    (exec (.subnReg x y) s = .next t → (t.v[VF] = 1 ∧ s.v[y] ≥ s.v[x]) ∨ (t.v[VF] = 0 ∧ s.v[y] < s.v[x])) ∧
    (exec (.shl x y) s = .next t → t.v[VF].toNat = s.v[x].toNat / 128) ∧
    ∀ n, n < 16 → exec (.drw x y n) s = .next t →
      (t.v[VF] = 1 ∧ ∃ px py, s.pix.pixel px py = true ∧ t.pix.pixel px py = false) ∨
      (t.v[VF] = 0 ∧ ∀ px py, s.pix.pixel px py = true → t.pix.pixel px py = true)

/-- R26, R186: only ANNN, FX1E and FX29 write I; every other instruction, those that use I as an address among them,
leaves all sixteen bits as they were. -/
def Obligations.OnlyThreeInstructionsWriteI : Prop :=
  ∀ (i : Instr) (s t : State), exec i s = .next t → writesIndex i = false → t.i = s.i

/-- R29, R30: only 2NNN and 00EE move SP; 00EE leaves every slot, 2NNN every slot but STACK[SP]. -/
def Obligations.OnlyCallAndReturnTouchTheStack : Prop :=
  ∀ (i : Instr) (s t : State), exec i s = .next t →
    (i ≠ .ret → (∀ nnn, i ≠ .call nnn) → t.sp = s.sp) ∧
    ((∀ nnn, i ≠ .call nnn) → t.stack = s.stack) ∧
    ∀ nnn, i = .call nnn → t.sp.val = s.sp.val + 1 ∧ ∀ k : Fin 16, k.val ≠ s.sp.val → t.stack[k] = s.stack[k]

/-- R31, R128: a Step changes DT only through FX15 and ST only through FX18. -/
def Obligations.OnlyTheirOwnInstructionsWriteTheTimers : Prop :=
  ∀ (i : Instr) (s t : State), exec i s = .next t →
    ((∀ x, i ≠ .ldDtVx x) → t.dt = s.dt) ∧ ((∀ x, i ≠ .ldStVx x) → t.st = s.st)

/-- R34, R35: no instruction writes the keypad, and only 00E0 and DXYN write the display. -/
def Obligations.KeypadIsNeverWrittenDisplayOnlyByTwo : Prop :=
  ∀ (i : Instr) (s t : State), exec i s = .next t →
    t.key = s.key ∧ (i ≠ .cls → (∀ x y n, i ≠ .drw x y n) → t.pix = s.pix)

/-- R34, R231: the keypad is read by EX9E, EXA1 and FX0A alone: what any other instruction answers does not depend on
it. -/
def Obligations.OnlyThreeInstructionsReadTheKeypad : Prop :=
  ∀ (i : Instr) (s : State) (k : KeyNum) (b : Bool),
    (∀ x, i ≠ .skp x) → (∀ x, i ≠ .sknp x) → (∀ x, i ≠ .ldVxK x) →
    exec i (s.onCore fun c => c.keySet k b) = mapNext (fun t => t.onCore fun c => c.keySet k b) (exec i s)

/-- R68, R69: every byte outside the range an instruction stores to reads as before; only FX33 and FX55 store, at I12 as
it stood when the Step began. -/
def Obligations.MemoryChangesOnlyInTheStoredRange : Prop :=
  ∀ (i : Instr) (s t : State) (a : Nat), exec i s = .next t →
    (a < (storedRange i s).1 ∨ (storedRange i s).1 + (storedRange i s).2 ≤ a) → t.mem.read a = s.mem.read a

/-- R126, R127: where pc goes. -/
def Obligations.NextPcIsThatOfTheTable : Prop :=
  ∀ (i : Instr) (s t : State), exec i s = .next t → t.pc = nextPc i s

/-- R211, R213, R215, R217: an instruction faults exactly when its one check fails, with that fault; otherwise it
completes. This is the completion statement of all 34 instructions. -/
def Obligations.InstructionsCompleteUnlessTheirCheckFails : Prop :=
  ∀ (i : Instr) (s : State),
    (faultOf i s = none → ∃ t, exec i s = .next t) ∧ ∀ f, faultOf i s = some f → exec i s = .fault f

/-- R214, R218, R220: a Step that faults leaves the core as it was, and a further Step, with another byte and after any
Tick or KeySet, faults in the same way. That the faulting Step ends the turn of Load (`false`) is the model's reading:
log 6. -/
def Obligations.FaultsLeaveTheStateAndRepeat : Prop :=
  ∀ (c : CoreState) (b : Bool) (rand rand' : Byte) (k : KeyNum) (p : Bool) (f : Fault), stepWith rand c = .fault f →
    Session.transact (.running b c) (.step rand) = (.running false c, .fault f) ∧
    stepWith rand' c = .fault f ∧ stepWith rand' c.tick = .fault f ∧ stepWith rand' (c.keySet k p) = .fault f

/-- R263, R129: at a jump to itself no Step changes anything: an ordinary endless sequence of Ok Steps. -/
def Obligations.SelfJumpStepsChangeNothing : Prop := ∀ s : State, AtSelfJump s.core → step s = .next s

/-! ### The invariant -/

/-- The invariant of Safety.lean holds after Reset. -/
def Obligations.InvariantHoldsAtReset : Prop := Inv State.reset.core

/-- R28, R60, R142: every Step that completes keeps memory canonical, pc at most 0x10FE and every return address at most
0x1000. -/
def Obligations.EveryStepKeepsTheInvariant : Prop := ∀ s t : State, Inv s.core → step s = .next t → Inv t.core

/-- Every transaction of the host keeps the invariant too: Reset, Load, Step with any byte, Tick, KeySet, the views. -/
def Obligations.EveryTransactionKeepsTheInvariant : Prop :=
  ∀ (b b' : Bool) (c d : CoreState) (tx : Transaction) (r : Response), Inv c →
    Session.transact (.running b c) tx = (.running b' d, r) → Inv d

/-! ### Tick, KeySet and the views -/

/-- R225: one Tick. -/
def Obligations.TickDecrementsBothTimersAndNothingElse : Prop :=
  ∀ (b : Bool) (c : CoreState), ∃ d e : Byte,
    Session.transact (.running b c) .tick = (.running b { c with dt := d, st := e }, .done) ∧
    d.toNat = c.dt.toNat - 1 ∧ e.toNat = c.st.toNat - 1

/-- R228: after n Ticks a timer that held M holds max(M - n, 0) (the difference of natural numbers). -/
def Obligations.TicksCountDownToZeroAndStay : Prop :=
  ∀ (n : Nat) (c : CoreState), (ticks n c).dt.toNat = c.dt.toNat - n ∧ (ticks n c).st.toNat = c.st.toNat - n

/-- R227: Tick and Step are independent: but for the three timer instructions, a Tick before an instruction and a Tick
after it are the same. -/
def Obligations.TicksCommuteWithOtherInstructions : Prop :=
  ∀ (i : Instr) (s : State), (∀ x, i ≠ .ldVxDt x) → (∀ x, i ≠ .ldDtVx x) → (∀ x, i ≠ .ldStVx x) →
    exec i (s.onCore CoreState.tick) = mapNext (State.onCore CoreState.tick) (exec i s)

/-- R230: KeySet writes one key and nothing else. -/
def Obligations.KeySetWritesOneKeyAndNothingElse : Prop :=
  ∀ (b : Bool) (c : CoreState) (k : KeyNum) (p : Bool), ∃ key' : Vector Bool 16,
    Session.transact (.running b c) (.keySet k p) = (.running b { c with key := key' }, .done) ∧
    key'[k] = p ∧ ∀ j : KeyNum, j ≠ k → key'[j] = c.key[j]

/-- R229, R232, R234: the views are functions of the state and change nothing; the debug view has the two bytes at pc
when pc is at most 4094, and else none. -/
def Obligations.ViewsShowTheStateAndChangeNothing : Prop :=
  ∀ (b : Bool) (c : CoreState),
    Session.transact (.running b c) .readSound = (.running b c, .sound (decide (c.st ≠ 0))) ∧
    (∃ p, Session.transact (.running b c) .readFramebuffer = (.running b c, .framebuffer p) ∧
      ∀ x y, p.pixel x y = c.pix.pixel x y) ∧
    ∃ d, Session.transact (.running b c) .readDebug = (.running b c, .debug d) ∧
      d.v = c.v ∧ d.i = c.i ∧ d.pc = c.pc ∧ d.sp = c.sp ∧ d.stack = c.stack ∧ d.dt = c.dt ∧ d.st = c.st ∧
      (c.pc.toNat ≤ 4094 → d.nextBytes = some (c.mem.read c.pc.toNat, c.mem.read (c.pc.toNat + 1))) ∧
      (4095 ≤ c.pc.toNat → d.nextBytes = none)

/-! ### The Step transaction -/

/-- R120, R128: the Step transaction of the host answers Ok with the Step's next state as the core's state, or the Step's
fault with the state as it was; there is no third answer. An Ok Step ends the turn of Load (R256); that a faulting Step
ends it too is the model's reading: log 6. -/
def Obligations.StepTransactionAnswersWhatTheStepAnswers : Prop :=
  ∀ (b : Bool) (c : CoreState) (rand : Byte),
    (∀ t, stepWith rand c = .next t →
      Session.transact (.running b c) (.step rand) = (.running false t, .ok)) ∧
    (∀ f, stepWith rand c = .fault f →
      Session.transact (.running b c) (.step rand) = (.running false c, .fault f)) ∧
    ((∃ t, stepWith rand c = .next t) ∨ ∃ f, stepWith rand c = .fault f)

/-- R120: what Step(rand) is, for every supplied byte. A fetched word of an instruction other than CXNN: what that
instruction answers in CORE, its fault too, whatever supply `exec` is given. A fetched word of CXNN: VX is the byte AND
NN. A fetched word of no instruction: UnknownOpcode. No fetch: AddressOutOfRange. -/
def Obligations.StepTransactionRunsTheFetchedInstruction : Prop :=
  ∀ (c : CoreState) (rand : Byte),
    (∀ i p, i.wellFormed = true → fetch c = .ok (encode i) → (∀ x nn, i ≠ .rnd x nn) →
      stepWith rand c = mapNext State.core (exec i { core := c, supply := p })) ∧
    (∀ x nn, fetch c = .ok (encode (.rnd x nn)) →
      stepWith rand c = .next { c with v := c.v.set x (rand &&& nn), pc := c.pc + 2 }) ∧
    (∀ op, fetch c = .ok op → wordWellFormed op = false → stepWith rand c = .fault (.unknownOpcode op)) ∧
    (4095 ≤ c.pc.toNat → stepWith rand c = .fault (.addressOutOfRange c.pc.toNat 2))

/-- R36, R120: `step` on CORE and a supply is, in CORE, the spec's Step(rand) with the byte supplied, named or free:
nothing of the supply but that one byte matters, and CORE gets nothing else from it. That the supply stands beside CORE
is the model's choice: log 1. -/
def Obligations.StepIsStepWithTheByteSupplied : Prop :=
  ∀ s : State, mapNext State.core (step s) = stepWith (s.supply.rand.getD (Config.randByte s.supply.draws)) s.core
end

