-- ==== Sys2Proof/Laws/Decode.lean ====
section
/-! SUPPORT. The fields of a word that a format puts together, and the word that its fields put together (R91, R92),
all by the numbers the words stand for. -/

namespace Sys2Proof

/-! ### Words and fields as numbers -/

/-- Concatenation is place value (R8). -/
theorem toNat_append_eq {m n : Nat} (x : BitVec m) (y : BitVec n) :
    (x ++ y).toNat = x.toNat * 2 ^ n + y.toNat := by
  rw [BitVec.toNat_append, ← Nat.shiftLeft_add_eq_or_of_lt y.isLt, Nat.shiftLeft_eq]

theorem toNat_be16 (a b : Byte) : (be16 a b).toNat = a.toNat * 256 + b.toNat := toNat_append_eq a b

theorem toNat_hiByte (op : Word) : (hiByte op).toNat = op.toNat / 256 := by
  have := op.isLt
  simp [hiByte, BitVec.extractLsb'_toNat, Nat.shiftRight_eq_div_pow]; omega

theorem toNat_loByte (op : Word) : (loByte op).toNat = op.toNat % 256 := by
  simp [loByte, BitVec.extractLsb'_toNat]

theorem toNat_fieldC (op : Word) : (fieldC op).toNat = op.toNat / 4096 := by
  have := op.isLt
  simp [fieldC, BitVec.extractLsb'_toNat, Nat.shiftRight_eq_div_pow]; omega

theorem val_fieldX (op : Word) : (fieldX op).val = op.toNat / 256 % 16 := by
  simp [fieldX, Nat.shiftRight_eq_div_pow]

theorem val_fieldY (op : Word) : (fieldY op).val = op.toNat / 16 % 16 := by
  simp [fieldY, Nat.shiftRight_eq_div_pow]

theorem toNat_fieldN (op : Word) : (fieldN op).toNat = op.toNat % 16 := by
  simp [fieldN, BitVec.extractLsb'_toNat]

theorem toNat_fieldNN (op : Word) : (fieldNN op).toNat = op.toNat % 256 := by
  simp [fieldNN, BitVec.extractLsb'_toNat]

theorem toNat_fieldNNN (op : Word) : (fieldNNN op).toNat = op.toNat % 4096 := by
  simp [fieldNNN, BitVec.extractLsb'_toNat]

theorem toNat_formatA (c : BitVec 4) (nnn : Addr12) : (formatA c nnn).toNat = c.toNat * 4096 + nnn.toNat :=
  toNat_append_eq c nnn

theorem toNat_formatI (c : BitVec 4) (x : Reg) (nn : Byte) :
    (formatI c x nn).toNat = c.toNat * 4096 + x.val * 256 + nn.toNat := by
  have h : (formatI c x nn).toNat = (c.toNat * 2 ^ 4 + x.val) * 2 ^ 8 + nn.toNat := by
    refine (toNat_append_eq (c ++ BitVec.ofFin (w := 4) x) nn).trans ?_
    rw [toNat_append_eq]
    rfl
  rw [h]; ring

theorem toNat_formatR (c : BitVec 4) (x y : Reg) (n : BitVec 4) :
    (formatR c x y n).toNat = c.toNat * 4096 + x.val * 256 + y.val * 16 + n.toNat := by
  have h : (formatR c x y n).toNat = ((c.toNat * 2 ^ 4 + x.val) * 2 ^ 4 + y.val) * 2 ^ 4 + n.toNat := by
    refine (toNat_append_eq (c ++ BitVec.ofFin (w := 4) x ++ BitVec.ofFin (w := 4) y) n).trans ?_
    rw [toNat_append_eq, toNat_append_eq]
    rfl
  rw [h]; ring

/-! ### Bytes of a word -/

@[simp] theorem hiByte_be16 (a b : Byte) : hiByte (be16 a b) = a := by
  have := b.isLt
  apply BitVec.eq_of_toNat_eq; rw [toNat_hiByte, toNat_be16]; omega

@[simp] theorem loByte_be16 (a b : Byte) : loByte (be16 a b) = b := by
  have := b.isLt
  apply BitVec.eq_of_toNat_eq; rw [toNat_loByte, toNat_be16]; omega

@[simp] theorem be16_hiByte_loByte (op : Word) : be16 (hiByte op) (loByte op) = op := by
  apply BitVec.eq_of_toNat_eq; rw [toNat_be16, toNat_hiByte, toNat_loByte]; omega

/-! ### Fields of a format -/

@[simp] theorem fieldC_formatA (c : BitVec 4) (nnn : Addr12) : fieldC (formatA c nnn) = c := by
  have := nnn.isLt
  apply BitVec.eq_of_toNat_eq; rw [toNat_fieldC, toNat_formatA]; omega

@[simp] theorem fieldNNN_formatA (c : BitVec 4) (nnn : Addr12) : fieldNNN (formatA c nnn) = nnn := by
  have := nnn.isLt
  apply BitVec.eq_of_toNat_eq; rw [toNat_fieldNNN, toNat_formatA]; omega

@[simp] theorem fieldC_formatI (c : BitVec 4) (x : Reg) (nn : Byte) : fieldC (formatI c x nn) = c := by
  have := nn.isLt; have := x.isLt
  apply BitVec.eq_of_toNat_eq; rw [toNat_fieldC, toNat_formatI]; omega

@[simp] theorem fieldX_formatI (c : BitVec 4) (x : Reg) (nn : Byte) : fieldX (formatI c x nn) = x := by
  have := nn.isLt; have := x.isLt
  apply Fin.ext; rw [val_fieldX, toNat_formatI]; omega

@[simp] theorem fieldNN_formatI (c : BitVec 4) (x : Reg) (nn : Byte) : fieldNN (formatI c x nn) = nn := by
  have := nn.isLt; have := x.isLt
  apply BitVec.eq_of_toNat_eq; rw [toNat_fieldNN, toNat_formatI]; omega

@[simp] theorem fieldC_formatR (c : BitVec 4) (x y : Reg) (n : BitVec 4) : fieldC (formatR c x y n) = c := by
  have := n.isLt; have := x.isLt; have := y.isLt
  apply BitVec.eq_of_toNat_eq; rw [toNat_fieldC, toNat_formatR]; omega

@[simp] theorem fieldX_formatR (c : BitVec 4) (x y : Reg) (n : BitVec 4) : fieldX (formatR c x y n) = x := by
  have := n.isLt; have := x.isLt; have := y.isLt
  apply Fin.ext; rw [val_fieldX, toNat_formatR]; omega

@[simp] theorem fieldY_formatR (c : BitVec 4) (x y : Reg) (n : BitVec 4) : fieldY (formatR c x y n) = y := by
  have := n.isLt; have := x.isLt; have := y.isLt
  apply Fin.ext; rw [val_fieldY, toNat_formatR]; omega

@[simp] theorem fieldN_formatR (c : BitVec 4) (x y : Reg) (n : BitVec 4) : fieldN (formatR c x y n) = n := by
  have := n.isLt; have := x.isLt; have := y.isLt
  apply BitVec.eq_of_toNat_eq; rw [toNat_fieldN, toNat_formatR]; omega

/-! ### The word of its fields -/

theorem formatA_fields (op : Word) : formatA (fieldC op) (fieldNNN op) = op := by
  apply BitVec.eq_of_toNat_eq; rw [toNat_formatA, toNat_fieldC, toNat_fieldNNN]; omega

theorem formatI_fields (op : Word) : formatI (fieldC op) (fieldX op) (fieldNN op) = op := by
  apply BitVec.eq_of_toNat_eq; rw [toNat_formatI, toNat_fieldC, val_fieldX, toNat_fieldNN]; omega

theorem formatR_fields (op : Word) : formatR (fieldC op) (fieldX op) (fieldY op) (fieldN op) = op := by
  apply BitVec.eq_of_toNat_eq; rw [toNat_formatR, toNat_fieldC, val_fieldX, val_fieldY, toNat_fieldN]; omega

/-! ### Masks: what a row of the opcode map looks at (R96) -/

/-- The mask of a row that fixes the category alone. -/
theorem formatA_and_C (c : BitVec 4) (nnn : Addr12) : formatA c nnn &&& 0xF000 = formatA c 0 := by
  refine (BitVec.and_append (x₁ := c) (x₂ := 0xF#4) (y₁ := nnn) (y₂ := 0#12)).trans ?_
  rw [show (0xF#4) = BitVec.allOnes 4 from rfl, BitVec.and_allOnes, BitVec.and_zero]
  rfl

/-- A word under the mask of a row that fixes the category alone. -/
theorem and_C (op : Word) : op &&& 0xF000 = formatA (fieldC op) 0 := by
  rw [← formatA_and_C (fieldC op) (fieldNNN op), formatA_fields]

/-- A word under the mask of a row that fixes the category and the low byte. -/
theorem and_C_NN (op : Word) : op &&& 0xF0FF = formatI (fieldC op) 0 (fieldNN op) := by
  have h : formatI (fieldC op) (fieldX op) (fieldNN op) &&& 0xF0FF = formatI (fieldC op) 0 (fieldNN op) := by
    refine (BitVec.and_append (x₁ := fieldC op ++ BitVec.ofFin (w := 4) (fieldX op)) (x₂ := 0xF0#8)
      (y₁ := fieldNN op) (y₂ := 0xFF#8)).trans ?_
    rw [show (0xF0#8) = 0xF#4 ++ 0#4 from rfl, BitVec.and_append, show (0xF#4) = BitVec.allOnes 4 from rfl,
      show (0xFF#8) = BitVec.allOnes 8 from rfl, BitVec.and_allOnes, BitVec.and_allOnes, BitVec.and_zero]
    rfl
  rwa [formatI_fields] at h

/-- A word under the mask of a row that fixes the category and the low nibble. -/
theorem and_C_N (op : Word) : op &&& 0xF00F = formatR (fieldC op) 0 0 (fieldN op) := by
  have h : formatR (fieldC op) (fieldX op) (fieldY op) (fieldN op) &&& 0xF00F =
      formatR (fieldC op) 0 0 (fieldN op) := by
    refine (BitVec.and_append
      (x₁ := fieldC op ++ BitVec.ofFin (w := 4) (fieldX op) ++ BitVec.ofFin (w := 4) (fieldY op)) (x₂ := 0xF00#12)
      (y₁ := fieldN op) (y₂ := 0xF#4)).trans ?_
    rw [show (0xF00#12) = 0xF#4 ++ 0#4 ++ 0#4 from rfl, BitVec.and_append, BitVec.and_append,
      show (0xF#4) = BitVec.allOnes 4 from rfl, BitVec.and_allOnes, BitVec.and_allOnes, BitVec.and_zero,
      BitVec.and_zero]
    rfl
  rwa [formatR_fields] at h

/-- Matching a row that fixes the whole word. -/
theorem matches_Z (op w : Word) : OpcodeRow.matches ⟨0xFFFF, w⟩ op = decide (op = w) := by
  show (op &&& BitVec.allOnes 16 == w) = _
  rw [BitVec.and_allOnes, beq_eq_decide]

/-- Matching a row that fixes the category: formats A, I and D. -/
theorem matches_C (op : Word) (c : BitVec 4) :
    OpcodeRow.matches ⟨0xF000, formatA c 0⟩ op = decide (fieldC op = c) := by
  rw [OpcodeRow.matches, and_C, beq_eq_decide, decide_eq_decide]
  exact ⟨fun h => by simpa using congrArg fieldC h, fun h => by rw [h]⟩

/-- Matching a row that fixes the category and the low nibble: format R. -/
theorem matches_R (op : Word) (c n : BitVec 4) :
    OpcodeRow.matches ⟨0xF00F, formatR c 0 0 n⟩ op = decide (fieldC op = c ∧ fieldN op = n) := by
  rw [OpcodeRow.matches, and_C_N, beq_eq_decide, decide_eq_decide]
  exact ⟨fun h => ⟨by simpa using congrArg fieldC h, by simpa using congrArg fieldN h⟩, fun h => by rw [h.1, h.2]⟩

/-- Matching a row that fixes the category and the low byte: format S. -/
theorem matches_S (op : Word) (c : BitVec 4) (nn : Byte) :
    OpcodeRow.matches ⟨0xF0FF, formatI c 0 nn⟩ op = decide (fieldC op = c ∧ fieldNN op = nn) := by
  rw [OpcodeRow.matches, and_C_NN, beq_eq_decide, decide_eq_decide]
  exact ⟨fun h => ⟨by simpa using congrArg fieldC h, by simpa using congrArg fieldNN h⟩, fun h => by rw [h.1, h.2]⟩

/-- The opcode map of R96 by fields: what the masks say, row by row. -/
theorem wordWellFormed_eq (op : Word) : wordWellFormed op =
   (decide (op = 0x00E0) || decide (op = 0x00EE) || decide (fieldC op = 1) || decide (fieldC op = 2) || decide (fieldC op = 3)
   || decide (fieldC op = 4) || decide (fieldC op = 5 ∧ fieldN op = 0) || decide (fieldC op = 6) || decide (fieldC op = 7)
   || decide (fieldC op = 9 ∧ fieldN op = 0) || decide (fieldC op = 0xA) || decide (fieldC op = 0xB) || decide (fieldC op = 0xC)
   || decide (fieldC op = 0xD) ||
   ([0,1,2,3,4,5,6,7,0xE] : List (BitVec 4)).any (fun n => decide (fieldC op = 8 ∧ fieldN op = n)) ||
   ([0x9E,0xA1] : List Byte).any (fun n => decide (fieldC op = 0xE ∧ fieldNN op = n)) ||
   ([0x07,0x0A,0x15,0x18,0x1E,0x29,0x33,0x55,0x65] : List Byte).any (fun n => decide (fieldC op = 0xF ∧ fieldNN op = n))) := by
  have a := matches_C op; have r := matches_R op; have z := matches_Z op; have q := matches_S op
  simp only [← a, ← r, ← z, ← q]
  simp only [wordWellFormed, opcodeRows, opcodeRowsPlain, opcodeRowsAlu, opcodeRowsEF, List.any_append, List.any_cons, List.any_nil]
  simp only [Bool.or_false, Bool.or_assoc]
  rfl

end Sys2Proof
end

