-- ==== Sys2Proof/Laws/Display.lean ====
section
/-! SUPPORT. What the sprite loop of R191 does to a display, said once: it draws the cells of the sprite, no cell twice
(R191 (b)), so every pixel is XORed with whether the sprite lights it, and the collision is whether it lights a set one. -/

namespace Sys2Proof.Machine

namespace Display

/-- Reading a pixel after a toggle. -/
theorem pixel_toggle (p : Display) (x x' : Fin 64) (y y' : Fin 32) :
    (p.toggle x y).pixel x' y' = if x = x' ∧ y = y' then !p.pixel x y else p.pixel x' y' := by
  unfold toggle pixel
  by_cases hy : y = y'
  · subst hy
    by_cases hx : x = x'
    · subst hx; simp
    · have : x.val ≠ x'.val := fun h => hx (Fin.ext h)
      simp [hx, this]
  · have : y.val ≠ y'.val := fun h => hy (Fin.ext h)
    simp [hy, this]

@[simp] theorem pixel_clear (x : Fin 64) (y : Fin 32) : Display.clear.pixel x y = false := by
  simp [pixel, clear]

/-- Two displays with the same pixels are one display. -/
theorem ext_pixel {p q : Display} (h : ∀ x y, p.pixel x y = q.pixel x y) : p = q :=
  Vector.ext fun y hy => Vector.ext fun x hx => h ⟨x, hx⟩ ⟨y, hy⟩

end Display

/-- A cell of the display. -/
abbrev Cell2 := Fin 64 × Fin 32

/-- Draws a list of cells, one after the other. -/
def DrawState.drawCells (d : DrawState) (cells : List Cell2) : DrawState :=
  cells.foldl (fun d q => d.draw q.1 q.2) d

/-- The cells one row of a sprite lights. -/
def rowCells (x0 y0 : Byte) (r : Nat) (bits : Byte) : List Cell2 :=
  ((List.range 8).filter fun c => bits.getLsbD (7 - c)).map fun c => (column x0 c, row y0 r)

/-- The cells the rows from r on light. -/
def spriteCells (x0 y0 : Byte) : Nat → List Byte → List Cell2
  | _, [] => []
  | r, bits :: rest => rowCells x0 y0 r bits ++ spriteCells x0 y0 (r + 1) rest

namespace DrawState

theorem drawCells_append (d : DrawState) (a b : List Cell2) : d.drawCells (a ++ b) = (d.drawCells a).drawCells b :=
  List.foldl_append

theorem drawRow_eq (d : DrawState) (x0 y0 : Byte) (r : Nat) (bits : Byte) :
    d.drawRow x0 y0 r bits = d.drawCells (rowCells x0 y0 r bits) := by
  unfold drawRow drawCells rowCells
  rw [List.foldl_map, List.foldl_filter]

theorem drawRows_eq (d : DrawState) (x0 y0 : Byte) (r : Nat) (rows : List Byte) :
    d.drawRows x0 y0 r rows = d.drawCells (spriteCells x0 y0 r rows) := by
  induction rows generalizing d r with
  | nil => rfl
  | cons bits rest ih => rw [drawRows, ih, drawRow_eq, spriteCells, drawCells_append]

/-- Drawing cells without repeats: each pixel is XORed with whether it is among them. -/
theorem pixel_drawCells (d : DrawState) {cells : List Cell2} (h : cells.Nodup) (x : Fin 64) (y : Fin 32) :
    (d.drawCells cells).pix.pixel x y = (d.pix.pixel x y ^^ decide ((x, y) ∈ cells)) := by
  induction cells generalizing d with
  | nil => simp [drawCells]
  | cons q cells ih =>
    rw [List.nodup_cons] at h
    have step : d.drawCells (q :: cells) = (d.draw q.1 q.2).drawCells cells := rfl
    rw [step, ih _ h.2]
    show ((d.pix.toggle q.1 q.2).pixel x y ^^ _) = _
    rw [Display.pixel_toggle]
    by_cases hq : q = (x, y)
    · subst hq
      simp [h.1]
    · have h1 : ¬ (q.1 = x ∧ q.2 = y) := fun ⟨a, b⟩ => hq (Prod.ext a b)
      have h2 : (x, y) ≠ q := fun e => hq e.symm
      simp [h1, h2]

/-- Drawing cells without repeats collides exactly when one of them is set. -/
theorem hit_drawCells (d : DrawState) {cells : List Cell2} (h : cells.Nodup) :
    (d.drawCells cells).hit = (d.hit || cells.any fun q => d.pix.pixel q.1 q.2) := by
  induction cells generalizing d with
  | nil => simp [drawCells]
  | cons q cells ih =>
    rw [List.nodup_cons] at h
    have step : d.drawCells (q :: cells) = (d.draw q.1 q.2).drawCells cells := rfl
    have rest : (cells.any fun c => (d.pix.toggle q.1 q.2).pixel c.1 c.2) = cells.any fun c => d.pix.pixel c.1 c.2 := by
      rw [Bool.eq_iff_iff, List.any_eq_true, List.any_eq_true]
      refine exists_congr fun c => and_congr_right fun hc => ?_
      rw [Display.pixel_toggle, if_neg]
      rintro ⟨a, b⟩
      exact h.1 ((Prod.ext a b : q = c) ▸ hc)
    rw [step, ih _ h.2]
    show ((d.hit || d.pix.pixel q.1 q.2) || cells.any fun c => (d.pix.toggle q.1 q.2).pixel c.1 c.2) = _
    rw [rest, List.any_cons, Bool.or_assoc]

end DrawState

theorem mem_rowCells {x0 y0 : Byte} {r : Nat} {bits : Byte} {x : Fin 64} {y : Fin 32} :
    (x, y) ∈ rowCells x0 y0 r bits ↔
      ∃ c < 8, bits.getLsbD (7 - c) = true ∧ column x0 c = x ∧ row y0 r = y := by
  simp only [rowCells, List.mem_map, List.mem_filter, List.mem_range, Prod.mk.injEq, and_assoc]

/-- The cells a sprite lights: row by row, column by column, wrapped (R191, R192). -/
theorem mem_spriteCells {x0 y0 : Byte} {k : Nat} {rows : List Byte} {x : Fin 64} {y : Fin 32} :
    (x, y) ∈ spriteCells x0 y0 k rows ↔
      ∃ r, ∃ h : r < rows.length, ∃ c < 8,
        rows[r].getLsbD (7 - c) = true ∧ column x0 c = x ∧ row y0 (k + r) = y := by
  induction rows generalizing k with
  | nil => simp [spriteCells]
  | cons bits rest ih =>
    rw [spriteCells, List.mem_append, mem_rowCells, ih]
    constructor
    · rintro (h | ⟨r, hr, c, hc, h⟩)
      · exact ⟨0, by simp, h⟩
      · exact ⟨r + 1, by simpa using hr, c, hc, by simpa [Nat.add_assoc, Nat.add_comm 1] using h⟩
    · rintro ⟨r, hr, c, hc, h⟩
      cases r with
      | zero => exact .inl ⟨c, hc, by simpa using h⟩
      | succ r => exact .inr ⟨r, by simpa using hr, c, hc, by simpa [Nat.add_assoc, Nat.add_comm 1] using h⟩

theorem column_inj {x0 : Byte} {c c' : Nat} (hc : c < 8) (hc' : c' < 8) (h : column x0 c = column x0 c') : c = c' := by
  simp only [column, Fin.ext_iff, Fin.val_ofNat] at h; omega

theorem row_inj {y0 : Byte} {r r' : Nat} (h : row y0 r = row y0 r') (hlt : r < r' + 32) (hlt' : r' < r + 32) :
    r = r' := by
  simp only [row, Fin.ext_iff, Fin.val_ofNat] at h; omega

/-- "Within one DXYN no pixel is touched twice" (R191 (b)): a sprite of at most 32 rows lights no cell twice. -/
theorem spriteCells_nodup (x0 y0 : Byte) (k : Nat) (rows : List Byte) (h : rows.length ≤ 32) :
    (spriteCells x0 y0 k rows).Nodup := by
  induction rows generalizing k with
  | nil => exact List.nodup_nil
  | cons bits rest ih =>
    simp only [List.length_cons] at h
    refine List.nodup_append.2 ⟨?_, ih (k + 1) (by omega), ?_⟩
    · refine List.Nodup.map_on ?_ (List.nodup_range.filter _)
      intro c hc c' hc' e
      simp only [List.mem_filter, List.mem_range] at hc hc'
      exact column_inj hc.1 hc'.1 (Prod.mk.inj e).1
    · rintro ⟨x, y⟩ ha ⟨x', y'⟩ hb e
      obtain ⟨rfl, rfl⟩ := Prod.mk.inj e
      obtain ⟨c, _, _, _, h1⟩ := mem_rowCells.1 ha
      obtain ⟨r, hr, c', _, _, _, h2⟩ := mem_spriteCells.1 hb
      have := row_inj (h1.trans h2.symm) (by omega) (by omega)
      omega

/-- Everything a sprite does to a pixel. -/
theorem pixel_drawSprite (p : Display) (x0 y0 : Byte) (rows : List Byte) (h : rows.length ≤ 32) (x : Fin 64)
    (y : Fin 32) :
    (drawSprite p x0 y0 rows).pix.pixel x y = (p.pixel x y ^^ decide ((x, y) ∈ spriteCells x0 y0 0 rows)) := by
  rw [drawSprite, DrawState.drawRows_eq, DrawState.pixel_drawCells _ (spriteCells_nodup _ _ _ _ h)]

/-- When a sprite collides (R193). -/
theorem hit_drawSprite (p : Display) (x0 y0 : Byte) (rows : List Byte) (h : rows.length ≤ 32) :
    (drawSprite p x0 y0 rows).hit = (spriteCells x0 y0 0 rows).any fun q => p.pixel q.1 q.2 := by
  rw [drawSprite, DrawState.drawRows_eq, DrawState.hit_drawCells _ (spriteCells_nodup _ _ _ _ h)]
  rfl

end Sys2Proof.Machine
end

