-- ==== Sys2Proof/Laws/Memory.lean ====
section
/-! SUPPORT. The laws of memory: read after write, frames, the canonical form, and one lemma each for what the checked
accesses of spec/20_memory.md R62 and R63 can do. -/

namespace Sys2Proof.Machine

namespace Memory

@[simp] theorem read_nil (a : Nat) : Memory.read [] a = initialByte a := rfl

theorem read_cons (c : Host.Cell) (m : Memory) (a : Nat) :
    Memory.read (c :: m) a = if c.1 = a then c.2 else Memory.read m a := rfl

/-- Listing a byte makes it the one read there, and no other (any list, canonical or not). -/
theorem read_insert (m : Memory) (a b : Nat) (w : Byte) :
    (m.insert a w).read b = if a = b then w else m.read b := by
  induction m with
  | nil => rfl
  | cons c m ih =>
    obtain ⟨d, u⟩ := c
    simp only [insert]
    split_ifs with h1 h2 <;> simp only [read_cons] <;> grind

/-- Taking an address out of the list gives it back its reset value. -/
theorem read_filter (m : Memory) (a b : Nat) :
    Memory.read (m.filter fun c => c.1 != a) b = if a = b then initialByte b else m.read b := by
  induction m with
  | nil => simp
  | cons c m ih =>
    by_cases h : c.1 = a
    · rw [List.filter_cons_of_neg (by simp [h]), ih, read_cons]
      split_ifs <;> simp_all
    · rw [List.filter_cons_of_pos (by simp [h]), read_cons, read_cons, ih]
      split_ifs <;> simp_all

/-- Read after write: the byte written there, every other byte as before (R69, R72). -/
theorem read_write (m : Memory) (a b : Nat) (w : Byte) :
    (m.write a w).read b = if a = b then w else m.read b := by
  unfold write
  split_ifs with h1 h2
  · rw [read_filter, if_pos h2, h1, h2]
  · rw [read_filter, if_neg h2]
  · rw [read_insert, if_pos ‹_›]
  · rw [read_insert, if_neg ‹_›]

@[simp] theorem read_write_same (m : Memory) (a : Nat) (w : Byte) : (m.write a w).read a = w := by simp [read_write]

theorem read_write_ne (m : Memory) {a b : Nat} (w : Byte) (h : a ≠ b) : (m.write a w).read b = m.read b := by
  simp [read_write, h]

@[simp] theorem writeBytes_nil (m : Memory) (a : Nat) : m.writeBytes a [] = m := rfl

@[simp] theorem writeBytes_cons (m : Memory) (a : Nat) (b : Byte) (bs : List Byte) :
    m.writeBytes a (b :: bs) = (m.write a b).writeBytes (a + 1) bs := rfl

/-- Bytes outside the range written read as before. -/
theorem read_writeBytes_outside (m : Memory) (a b : Nat) (bs : List Byte) (h : b < a ∨ a + bs.length ≤ b) :
    (m.writeBytes a bs).read b = m.read b := by
  induction bs generalizing m a with
  | nil => rfl
  | cons w bs ih =>
    simp only [List.length_cons] at h
    rw [writeBytes_cons, ih _ _ (by omega), read_write_ne _ _ (by omega)]

/-- Byte k of the range written reads as the k-th byte. -/
theorem read_writeBytes_inside (m : Memory) (a k : Nat) (bs : List Byte) (h : k < bs.length) :
    (m.writeBytes a bs).read (a + k) = bs[k] := by
  induction bs generalizing m a k with
  | nil => simp at h
  | cons w bs ih =>
    cases k with
    | zero => rw [writeBytes_cons, read_writeBytes_outside _ _ _ _ (by omega)]; simp
    | succ k =>
      simp only [List.length_cons] at h
      rw [writeBytes_cons, show a + (k + 1) = a + 1 + k by omega, ih _ _ _ (by omega)]
      rfl

@[simp] theorem length_readBytes (m : Memory) (a n : Nat) : (m.readBytes a n).length = n := by
  induction n generalizing a with
  | zero => rfl
  | succ n ih => simp [readBytes, ih]

/-- Byte k of a read is the byte at its own offset (R62). -/
theorem getElem_readBytes (m : Memory) (a n k : Nat) (h : k < (m.readBytes a n).length) :
    (m.readBytes a n)[k] = m.read (a + k) := by
  induction n generalizing a k with
  | zero => simp at h
  | succ n ih =>
    cases k with
    | zero => rfl
    | succ k => simp only [readBytes, List.getElem_cons_succ]; rw [ih]; congr 1; omega

/-! ### The canonical form -/

theorem wf_nil : Memory.wf [] := ⟨List.Pairwise.nil, fun _ h => nomatch h⟩

theorem mem_insert {m : Memory} {a : Nat} {w : Byte} {c : Host.Cell} (h : c ∈ m.insert a w) : c = (a, w) ∨ c ∈ m := by
  induction m with
  | nil => simpa [insert] using h
  | cons d m ih =>
    obtain ⟨b, u⟩ := d
    simp only [insert] at h
    split_ifs at h <;> simp only [List.mem_cons] at h ⊢ <;> tauto

theorem insert_pairwise {m : Memory} (a : Nat) (w : Byte) (h : m.Pairwise (fun c d => c.1 < d.1)) :
    (m.insert a w).Pairwise (fun c d => c.1 < d.1) := by
  induction m with
  | nil => simp [insert]
  | cons d m ih =>
    obtain ⟨b, u⟩ := d
    rw [List.pairwise_cons] at h
    simp only [insert]
    split_ifs with h1 h2
    · refine List.pairwise_cons.2 ⟨fun c hc => ?_, List.pairwise_cons.2 h⟩
      rcases List.mem_cons.1 hc with rfl | hc
      · exact h1
      · exact h1.trans (h.1 c hc)
    · exact List.pairwise_cons.2 ⟨fun c hc => h2 ▸ h.1 c hc, h.2⟩
    · refine List.pairwise_cons.2 ⟨fun c hc => ?_, ih h.2⟩
      rcases mem_insert hc with rfl | hc
      · show b < a; omega
      · exact h.1 c hc

/-- A write inside the address space keeps the canonical form. -/
theorem write_wf {m : Memory} {a : Nat} (w : Byte) (h : m.wf) (ha : a < Config.memSize) : (m.write a w).wf := by
  unfold write
  split_ifs with hw
  · exact ⟨h.1.filter _, fun c hc => h.2 c (List.mem_of_mem_filter hc)⟩
  · refine ⟨insert_pairwise a w h.1, fun c hc => ?_⟩
    rcases mem_insert hc with rfl | hc
    · exact ⟨ha, hw⟩
    · exact h.2 c hc

theorem writeBytes_wf {m : Memory} {a : Nat} {bs : List Byte} (h : m.wf) (ha : a + bs.length ≤ Config.memSize) :
    (m.writeBytes a bs).wf := by
  induction bs generalizing m a with
  | nil => exact h
  | cons b bs ih =>
    simp only [List.length_cons] at ha
    exact ih (write_wf b h (by omega)) (by omega)

/-- Canonical memories that read the same everywhere are the same data. -/
theorem eq_of_read_eq {m n : Memory} (hm : m.wf) (hn : n.wf) (h : ∀ a, m.read a = n.read a) : m = n := by
  have read_lt : ∀ {m : Memory} {a : Nat}, (∀ c ∈ m, a < c.1) → m.read a = initialByte a := by
    intro m a hlt
    induction m with
    | nil => rfl
    | cons c m ih =>
      rw [read_cons, if_neg (by have := hlt c (by simp); omega)]
      exact ih fun d hd => hlt d (by simp [hd])
  have tail_wf : ∀ {c : Host.Cell} {m : Memory}, Memory.wf (c :: m) → m.wf := fun hw =>
    ⟨(List.pairwise_cons.1 hw.1).2, fun d hd => hw.2 d (by simp [hd])⟩
  have head_lt : ∀ {c : Host.Cell} {m : Memory} {a : Nat}, Memory.wf (c :: m) → a ≤ c.1 → ∀ d ∈ m, a < d.1 :=
    fun hw ha d hd => lt_of_le_of_lt ha ((List.pairwise_cons.1 hw.1).1 d hd)
  induction m generalizing n with
  | nil =>
    cases n with
    | nil => rfl
    | cons c n =>
      have := h c.1
      rw [read_cons, if_pos rfl] at this
      exact absurd this.symm (hn.2 c (by simp)).2
  | cons c m ih =>
    cases n with
    | nil =>
      have := h c.1
      rw [read_cons, if_pos rfl] at this
      exact absurd this (hm.2 c (by simp)).2
    | cons d n =>
      obtain ⟨a, u⟩ := c
      obtain ⟨b, w⟩ := d
      have hab : a = b := by
        rcases lt_trichotomy a b with hlt | heq | hlt
        · have := h a
          rw [read_cons, if_pos rfl, read_cons, if_neg (show b ≠ a by omega),
            read_lt (head_lt hn (le_of_lt hlt))] at this
          exact absurd this (hm.2 (a, u) (by simp)).2
        · exact heq
        · have := h b
          rw [read_cons, if_neg (show a ≠ b by omega), read_lt (head_lt hm (le_of_lt hlt)), read_cons,
            if_pos rfl] at this
          exact absurd this.symm (hn.2 (b, w) (by simp)).2
      subst hab
      have huw : u = w := by simpa [read_cons] using h a
      subst huw
      congr 1
      refine ih (tail_wf hm) (tail_wf hn) fun e => ?_
      by_cases he : a = e
      · subst he
        rw [read_lt (head_lt hm le_rfl), read_lt (head_lt hn le_rfl)]
      · simpa [read_cons, he] using h e

end Memory

/-! ### The checked accesses -/

/-- A read answers exactly when its whole range is in memory, and then the bytes in ascending order (R62). -/
theorem memRead_eq_ok {m : Memory} {a n : Nat} {bs : List Byte} :
    memRead m a n = .ok bs ↔ a + n ≤ 4096 ∧ bs = m.readBytes a n := by
  unfold memRead
  split_ifs with h <;> simp only [Config.memSize] at h
  · simp only [false_iff]; omega
  · simp only [Except.ok.injEq, eq_comm, iff_and_self]; omega

theorem memRead_eq_error {m : Memory} {a n : Nat} {f : Fault} :
    memRead m a n = .error f ↔ 4096 < a + n ∧ f = .addressOutOfRange a n := by
  unfold memRead
  split_ifs with h <;> simp only [Config.memSize] at h
  · simp only [Except.error.injEq, eq_comm, iff_and_self]; omega
  · simp only [false_iff]; omega

/-- A write answers exactly when its whole range is in memory (R63). -/
theorem memWrite_eq_ok {m m' : Memory} {a : Nat} {bs : List Byte} :
    memWrite m a bs = .ok m' ↔ a + bs.length ≤ 4096 ∧ m' = m.writeBytes a bs := by
  unfold memWrite
  split_ifs with h <;> simp only [Config.memSize] at h
  · simp only [false_iff]; omega
  · simp only [Except.ok.injEq, eq_comm, iff_and_self]; omega

theorem memWrite_eq_error {m : Memory} {a : Nat} {bs : List Byte} {f : Fault} :
    memWrite m a bs = .error f ↔ 4096 < a + bs.length ∧ f = .addressOutOfRange a bs.length := by
  unfold memWrite
  split_ifs with h <;> simp only [Config.memSize] at h
  · simp only [Except.error.injEq, eq_comm, iff_and_self]; omega
  · simp only [false_iff]; omega

/-- Every successful write keeps the canonical form. -/
theorem memWrite_wf {m m' : Memory} {a : Nat} {bs : List Byte} (h : memWrite m a bs = .ok m') (hm : m.wf) : m'.wf := by
  obtain ⟨ha, rfl⟩ := memWrite_eq_ok.1 h
  exact Memory.writeBytes_wf hm ha

/-- The memory of Reset is in canonical form. -/
theorem reset_mem_wf : State.reset.mem.wf := Memory.wf_nil

end Sys2Proof.Machine
end

