-- ==== Sys2Proof/Laws/State.lean ====
section
/-! SUPPORT. One lemma for each field of `State` under each update, so that no proof unfolds a record update; and the
accessors under the updates. -/

namespace Sys2Proof.Machine.State

variable (s : State)


/-! ### setV -/

@[simp] theorem setV_v (x : Reg) (b : Byte) : (s.setV x b).v = s.v.set x b := rfl
@[simp] theorem setV_i (x : Reg) (b : Byte) : (s.setV x b).i = s.i := rfl
@[simp] theorem setV_pc (x : Reg) (b : Byte) : (s.setV x b).pc = s.pc := rfl
@[simp] theorem setV_stack (x : Reg) (b : Byte) : (s.setV x b).stack = s.stack := rfl
@[simp] theorem setV_sp (x : Reg) (b : Byte) : (s.setV x b).sp = s.sp := rfl
@[simp] theorem setV_dt (x : Reg) (b : Byte) : (s.setV x b).dt = s.dt := rfl
@[simp] theorem setV_st (x : Reg) (b : Byte) : (s.setV x b).st = s.st := rfl
@[simp] theorem setV_mem (x : Reg) (b : Byte) : (s.setV x b).mem = s.mem := rfl
@[simp] theorem setV_key (x : Reg) (b : Byte) : (s.setV x b).key = s.key := rfl
@[simp] theorem setV_pix (x : Reg) (b : Byte) : (s.setV x b).pix = s.pix := rfl
@[simp] theorem setV_supply (x : Reg) (b : Byte) : (s.setV x b).supply = s.supply := rfl
@[simp] theorem setV_i12 (x : Reg) (b : Byte) : (s.setV x b).i12 = s.i12 := rfl

/-! ### setRegs -/

@[simp] theorem setRegs_v (u : Vector Byte 16) : (s.setRegs u).v = u := rfl
@[simp] theorem setRegs_i (u : Vector Byte 16) : (s.setRegs u).i = s.i := rfl
@[simp] theorem setRegs_pc (u : Vector Byte 16) : (s.setRegs u).pc = s.pc := rfl
@[simp] theorem setRegs_stack (u : Vector Byte 16) : (s.setRegs u).stack = s.stack := rfl
@[simp] theorem setRegs_sp (u : Vector Byte 16) : (s.setRegs u).sp = s.sp := rfl
@[simp] theorem setRegs_dt (u : Vector Byte 16) : (s.setRegs u).dt = s.dt := rfl
@[simp] theorem setRegs_st (u : Vector Byte 16) : (s.setRegs u).st = s.st := rfl
@[simp] theorem setRegs_mem (u : Vector Byte 16) : (s.setRegs u).mem = s.mem := rfl
@[simp] theorem setRegs_key (u : Vector Byte 16) : (s.setRegs u).key = s.key := rfl
@[simp] theorem setRegs_pix (u : Vector Byte 16) : (s.setRegs u).pix = s.pix := rfl
@[simp] theorem setRegs_supply (u : Vector Byte 16) : (s.setRegs u).supply = s.supply := rfl
@[simp] theorem setRegs_i12 (u : Vector Byte 16) : (s.setRegs u).i12 = s.i12 := rfl

/-! ### setI -/

@[simp] theorem setI_v (w : Word) : (s.setI w).v = s.v := rfl
@[simp] theorem setI_i (w : Word) : (s.setI w).i = w := rfl
@[simp] theorem setI_pc (w : Word) : (s.setI w).pc = s.pc := rfl
@[simp] theorem setI_stack (w : Word) : (s.setI w).stack = s.stack := rfl
@[simp] theorem setI_sp (w : Word) : (s.setI w).sp = s.sp := rfl
@[simp] theorem setI_dt (w : Word) : (s.setI w).dt = s.dt := rfl
@[simp] theorem setI_st (w : Word) : (s.setI w).st = s.st := rfl
@[simp] theorem setI_mem (w : Word) : (s.setI w).mem = s.mem := rfl
@[simp] theorem setI_key (w : Word) : (s.setI w).key = s.key := rfl
@[simp] theorem setI_pix (w : Word) : (s.setI w).pix = s.pix := rfl
@[simp] theorem setI_supply (w : Word) : (s.setI w).supply = s.supply := rfl
@[simp] theorem setI_getV (w : Word) (z : Reg) : (s.setI w).getV z = s.getV z := rfl
@[simp] theorem setI_regsUpTo (w : Word) (z : Reg) : (s.setI w).regsUpTo z = s.regsUpTo z := rfl

/-! ### setPc -/

@[simp] theorem setPc_v (w : Word) : (s.setPc w).v = s.v := rfl
@[simp] theorem setPc_i (w : Word) : (s.setPc w).i = s.i := rfl
@[simp] theorem setPc_pc (w : Word) : (s.setPc w).pc = w := rfl
@[simp] theorem setPc_stack (w : Word) : (s.setPc w).stack = s.stack := rfl
@[simp] theorem setPc_sp (w : Word) : (s.setPc w).sp = s.sp := rfl
@[simp] theorem setPc_dt (w : Word) : (s.setPc w).dt = s.dt := rfl
@[simp] theorem setPc_st (w : Word) : (s.setPc w).st = s.st := rfl
@[simp] theorem setPc_mem (w : Word) : (s.setPc w).mem = s.mem := rfl
@[simp] theorem setPc_key (w : Word) : (s.setPc w).key = s.key := rfl
@[simp] theorem setPc_pix (w : Word) : (s.setPc w).pix = s.pix := rfl
@[simp] theorem setPc_supply (w : Word) : (s.setPc w).supply = s.supply := rfl
@[simp] theorem setPc_getV (w : Word) (z : Reg) : (s.setPc w).getV z = s.getV z := rfl
@[simp] theorem setPc_regsUpTo (w : Word) (z : Reg) : (s.setPc w).regsUpTo z = s.regsUpTo z := rfl
@[simp] theorem setPc_i12 (w : Word) : (s.setPc w).i12 = s.i12 := rfl

/-! ### setDt -/

@[simp] theorem setDt_v (b : Byte) : (s.setDt b).v = s.v := rfl
@[simp] theorem setDt_i (b : Byte) : (s.setDt b).i = s.i := rfl
@[simp] theorem setDt_pc (b : Byte) : (s.setDt b).pc = s.pc := rfl
@[simp] theorem setDt_stack (b : Byte) : (s.setDt b).stack = s.stack := rfl
@[simp] theorem setDt_sp (b : Byte) : (s.setDt b).sp = s.sp := rfl
@[simp] theorem setDt_dt (b : Byte) : (s.setDt b).dt = b := rfl
@[simp] theorem setDt_st (b : Byte) : (s.setDt b).st = s.st := rfl
@[simp] theorem setDt_mem (b : Byte) : (s.setDt b).mem = s.mem := rfl
@[simp] theorem setDt_key (b : Byte) : (s.setDt b).key = s.key := rfl
@[simp] theorem setDt_pix (b : Byte) : (s.setDt b).pix = s.pix := rfl
@[simp] theorem setDt_supply (b : Byte) : (s.setDt b).supply = s.supply := rfl
@[simp] theorem setDt_getV (b : Byte) (z : Reg) : (s.setDt b).getV z = s.getV z := rfl
@[simp] theorem setDt_regsUpTo (b : Byte) (z : Reg) : (s.setDt b).regsUpTo z = s.regsUpTo z := rfl
@[simp] theorem setDt_i12 (b : Byte) : (s.setDt b).i12 = s.i12 := rfl

/-! ### setSt -/

@[simp] theorem setSt_v (b : Byte) : (s.setSt b).v = s.v := rfl
@[simp] theorem setSt_i (b : Byte) : (s.setSt b).i = s.i := rfl
@[simp] theorem setSt_pc (b : Byte) : (s.setSt b).pc = s.pc := rfl
@[simp] theorem setSt_stack (b : Byte) : (s.setSt b).stack = s.stack := rfl
@[simp] theorem setSt_sp (b : Byte) : (s.setSt b).sp = s.sp := rfl
@[simp] theorem setSt_dt (b : Byte) : (s.setSt b).dt = s.dt := rfl
@[simp] theorem setSt_st (b : Byte) : (s.setSt b).st = b := rfl
@[simp] theorem setSt_mem (b : Byte) : (s.setSt b).mem = s.mem := rfl
@[simp] theorem setSt_key (b : Byte) : (s.setSt b).key = s.key := rfl
@[simp] theorem setSt_pix (b : Byte) : (s.setSt b).pix = s.pix := rfl
@[simp] theorem setSt_supply (b : Byte) : (s.setSt b).supply = s.supply := rfl
@[simp] theorem setSt_getV (b : Byte) (z : Reg) : (s.setSt b).getV z = s.getV z := rfl
@[simp] theorem setSt_regsUpTo (b : Byte) (z : Reg) : (s.setSt b).regsUpTo z = s.regsUpTo z := rfl
@[simp] theorem setSt_i12 (b : Byte) : (s.setSt b).i12 = s.i12 := rfl

/-! ### setMem -/

@[simp] theorem setMem_v (m : Memory) : (s.setMem m).v = s.v := rfl
@[simp] theorem setMem_i (m : Memory) : (s.setMem m).i = s.i := rfl
@[simp] theorem setMem_pc (m : Memory) : (s.setMem m).pc = s.pc := rfl
@[simp] theorem setMem_stack (m : Memory) : (s.setMem m).stack = s.stack := rfl
@[simp] theorem setMem_sp (m : Memory) : (s.setMem m).sp = s.sp := rfl
@[simp] theorem setMem_dt (m : Memory) : (s.setMem m).dt = s.dt := rfl
@[simp] theorem setMem_st (m : Memory) : (s.setMem m).st = s.st := rfl
@[simp] theorem setMem_mem (m : Memory) : (s.setMem m).mem = m := rfl
@[simp] theorem setMem_key (m : Memory) : (s.setMem m).key = s.key := rfl
@[simp] theorem setMem_pix (m : Memory) : (s.setMem m).pix = s.pix := rfl
@[simp] theorem setMem_supply (m : Memory) : (s.setMem m).supply = s.supply := rfl
@[simp] theorem setMem_getV (m : Memory) (z : Reg) : (s.setMem m).getV z = s.getV z := rfl
@[simp] theorem setMem_regsUpTo (m : Memory) (z : Reg) : (s.setMem m).regsUpTo z = s.regsUpTo z := rfl
@[simp] theorem setMem_i12 (m : Memory) : (s.setMem m).i12 = s.i12 := rfl

/-! ### setPix -/

@[simp] theorem setPix_v (p : Display) : (s.setPix p).v = s.v := rfl
@[simp] theorem setPix_i (p : Display) : (s.setPix p).i = s.i := rfl
@[simp] theorem setPix_pc (p : Display) : (s.setPix p).pc = s.pc := rfl
@[simp] theorem setPix_stack (p : Display) : (s.setPix p).stack = s.stack := rfl
@[simp] theorem setPix_sp (p : Display) : (s.setPix p).sp = s.sp := rfl
@[simp] theorem setPix_dt (p : Display) : (s.setPix p).dt = s.dt := rfl
@[simp] theorem setPix_st (p : Display) : (s.setPix p).st = s.st := rfl
@[simp] theorem setPix_mem (p : Display) : (s.setPix p).mem = s.mem := rfl
@[simp] theorem setPix_key (p : Display) : (s.setPix p).key = s.key := rfl
@[simp] theorem setPix_pix (p : Display) : (s.setPix p).pix = p := rfl
@[simp] theorem setPix_supply (p : Display) : (s.setPix p).supply = s.supply := rfl
@[simp] theorem setPix_getV (p : Display) (z : Reg) : (s.setPix p).getV z = s.getV z := rfl
@[simp] theorem setPix_regsUpTo (p : Display) (z : Reg) : (s.setPix p).regsUpTo z = s.regsUpTo z := rfl
@[simp] theorem setPix_i12 (p : Display) : (s.setPix p).i12 = s.i12 := rfl

/-! ### setRand -/

@[simp] theorem setRand_v (r : Option Byte) : (s.setRand r).v = s.v := rfl
@[simp] theorem setRand_i (r : Option Byte) : (s.setRand r).i = s.i := rfl
@[simp] theorem setRand_pc (r : Option Byte) : (s.setRand r).pc = s.pc := rfl
@[simp] theorem setRand_stack (r : Option Byte) : (s.setRand r).stack = s.stack := rfl
@[simp] theorem setRand_sp (r : Option Byte) : (s.setRand r).sp = s.sp := rfl
@[simp] theorem setRand_dt (r : Option Byte) : (s.setRand r).dt = s.dt := rfl
@[simp] theorem setRand_st (r : Option Byte) : (s.setRand r).st = s.st := rfl
@[simp] theorem setRand_mem (r : Option Byte) : (s.setRand r).mem = s.mem := rfl
@[simp] theorem setRand_key (r : Option Byte) : (s.setRand r).key = s.key := rfl
@[simp] theorem setRand_pix (r : Option Byte) : (s.setRand r).pix = s.pix := rfl
@[simp] theorem setRand_core (r : Option Byte) : (s.setRand r).core = s.core := rfl
@[simp] theorem setRand_supply (r : Option Byte) : (s.setRand r).supply = { s.supply with rand := r } := rfl
@[simp] theorem setRand_getV (r : Option Byte) (z : Reg) : (s.setRand r).getV z = s.getV z := rfl
@[simp] theorem setRand_regsUpTo (r : Option Byte) (z : Reg) : (s.setRand r).regsUpTo z = s.regsUpTo z := rfl
@[simp] theorem setRand_i12 (r : Option Byte) : (s.setRand r).i12 = s.i12 := rfl

/-! ### drawn -/

@[simp] theorem drawn_v : (s.drawn).v = s.v := rfl
@[simp] theorem drawn_i : (s.drawn).i = s.i := rfl
@[simp] theorem drawn_pc : (s.drawn).pc = s.pc := rfl
@[simp] theorem drawn_stack : (s.drawn).stack = s.stack := rfl
@[simp] theorem drawn_sp : (s.drawn).sp = s.sp := rfl
@[simp] theorem drawn_dt : (s.drawn).dt = s.dt := rfl
@[simp] theorem drawn_st : (s.drawn).st = s.st := rfl
@[simp] theorem drawn_mem : (s.drawn).mem = s.mem := rfl
@[simp] theorem drawn_key : (s.drawn).key = s.key := rfl
@[simp] theorem drawn_pix : (s.drawn).pix = s.pix := rfl
@[simp] theorem drawn_core : (s.drawn).core = s.core := rfl
@[simp] theorem drawn_supply : (s.drawn).supply = s.supply.next := rfl
@[simp] theorem drawn_getV (z : Reg) : (s.drawn).getV z = s.getV z := rfl
@[simp] theorem drawn_regsUpTo (z : Reg) : (s.drawn).regsUpTo z = s.regsUpTo z := rfl
@[simp] theorem drawn_i12 : (s.drawn).i12 = s.i12 := rfl

/-! ### onCore -/

@[simp] theorem onCore_core (f : CoreState → CoreState) : (s.onCore f).core = f s.core := rfl
@[simp] theorem onCore_supply (f : CoreState → CoreState) : (s.onCore f).supply = s.supply := rfl

/-! ### General registers -/

/-- Read after write, for every pair of registers (R22). -/
theorem getV_setV (x z : Reg) (b : Byte) : (s.setV x b).getV z = if x = z then b else s.getV z := by
  simp [getV, setV, Vector.getElem_set, Fin.ext_iff]

@[simp] theorem getV_setV_same (x : Reg) (b : Byte) : (s.setV x b).getV x = b := by simp [getV_setV]

theorem getV_setV_ne {x z : Reg} (b : Byte) (h : x ≠ z) : (s.setV x b).getV z = s.getV z := by simp [getV_setV, h]

@[simp] theorem getV_setRegs (u : Vector Byte 16) (z : Reg) : (s.setRegs u).getV z = u[z] := rfl

/-- A flag writer: VF holds the flag even when X = 15, every other register as after the result alone (R125). -/
theorem getV_setV_flag (x z : Reg) (b f : Byte) :
    ((s.setV x b).setV VF f).getV z = if z = VF then f else if z = x then b else s.getV z := by
  simp only [getV_setV, eq_comm]

/-! ### Extensionality through the accessors -/

/-- Two states with the same registers and the same other fields are one state. -/
theorem ext_getV {s t : State} (hv : ∀ x : Reg, s.getV x = t.getV x) (hi : s.i = t.i) (hpc : s.pc = t.pc)
    (hstack : s.stack = t.stack) (hsp : s.sp = t.sp) (hdt : s.dt = t.dt) (hst : s.st = t.st) (hmem : s.mem = t.mem)
    (hkey : s.key = t.key) (hpix : s.pix = t.pix) (hsupply : s.supply = t.supply) : s = t := by
  obtain ⟨⟨⟩, _⟩ := s
  obtain ⟨⟨⟩, _⟩ := t
  simp only [State.mk.injEq, CoreState.mk.injEq]
  exact ⟨⟨Vector.ext fun k hk => hv ⟨k, hk⟩, hi, hpc, hstack, hsp, hdt, hst, hmem, hkey, hpix⟩, hsupply⟩

end Sys2Proof.Machine.State

/-! ### Reset, field by field (R38) -/

namespace Sys2Proof.Machine

@[simp] theorem State.reset_core : State.reset.core = CoreState.reset := rfl
@[simp] theorem CoreState.reset_v : CoreState.reset.v = Vector.replicate 16 0 := rfl
@[simp] theorem CoreState.reset_i : CoreState.reset.i = 0 := rfl
@[simp] theorem CoreState.reset_pc : CoreState.reset.pc = 0x200 := rfl
@[simp] theorem CoreState.reset_stack : CoreState.reset.stack = Vector.replicate 16 0 := rfl
@[simp] theorem CoreState.reset_sp : CoreState.reset.sp = 0 := rfl
@[simp] theorem CoreState.reset_dt : CoreState.reset.dt = 0 := rfl
@[simp] theorem CoreState.reset_st : CoreState.reset.st = 0 := rfl
@[simp] theorem CoreState.reset_mem : CoreState.reset.mem = [] := rfl
@[simp] theorem CoreState.reset_key : CoreState.reset.key = Vector.replicate 16 false := rfl
@[simp] theorem CoreState.reset_pix : CoreState.reset.pix = Display.clear := rfl

end Sys2Proof.Machine
end

