-- ==== Sys2Proof/Laws/Ops.lean ====
section
/-! SUPPORT. One lemma for each shared operation that says once everything it can do; later proofs cite these and do
not unfold the operations. -/

namespace Sys2Proof.Machine

/-! ### Checks and ends of a Step -/

@[simp] theorem checked_ok {α : Type} (a : α) (k : α → Result) : checked (.ok a) k = k a := rfl

@[simp] theorem checked_error {α : Type} (f : Fault) (k : α → Result) : checked (.error f) k = .fault f := rfl

/-- A check passes into a next state exactly when it answers and the rest answers that state. -/
theorem checked_eq_next {α : Type} {e : Except Fault α} {k : α → Result} {t : State} :
    checked e k = .next t ↔ ∃ a, e = .ok a ∧ k a = .next t := by
  cases e <;> simp

theorem checked_eq_fault {α : Type} {e : Except Fault α} {k : α → Result} {f : Fault} :
    checked e k = .fault f ↔ e = .error f ∨ ∃ a, e = .ok a ∧ k a = .fault f := by
  cases e <;> simp

theorem checked_eq_refused {α : Type} {e : Except Fault α} {k : α → Result} {r : Refusal} :
    checked e k = .refused r ↔ ∃ a, e = .ok a ∧ k a = .refused r := by
  cases e <;> simp

@[simp] theorem raise_eq (f : Fault) : raise f = .fault f := rfl

@[simp] theorem jumpTo_eq (w : Word) (s : State) : jumpTo w s = .next (s.setPc w) := rfl

@[simp] theorem complete_eq (s : State) : complete s = .next (s.setPc (s.pc + 2)) := rfl

theorem skipWhen_eq (c : Bool) (s : State) : skipWhen c s = .next (s.setPc (if c then s.pc + 4 else s.pc + 2)) := rfl

theorem writeResult_eq (x : Reg) (b : Byte) (s : State) :
    writeResult x b s = .next ((s.setV x b).setPc (s.pc + 2)) := rfl

theorem writeResultFlag_eq (x : Reg) (b f : Byte) (s : State) :
    writeResultFlag x b f s = .next (((s.setV x b).setV VF f).setPc (s.pc + 2)) := rfl

/-! ### The call stack -/

/-- A push answers exactly when SP < 16 (R142). -/
theorem push_eq_ok {s t : State} {w : Word} :
    s.push w = .ok t ↔ ∃ h : s.sp.val < 16,
      t = { s with stack := s.stack.set s.sp.val w h, sp := ⟨s.sp.val + 1, by omega⟩ } := by
  unfold State.push
  split_ifs with h
  · simp [h, eq_comm]
  · simp [h]

theorem push_eq_error {s : State} {w : Word} {f : Fault} :
    s.push w = .error f ↔ s.sp.val = 16 ∧ f = .stackOverflow := by
  unfold State.push
  have := s.sp.isLt
  split_ifs with h
  · simp only [false_iff]; omega
  · simp only [Except.error.injEq, eq_comm, iff_and_self]; omega

/-- A pop answers exactly when SP > 0; the slot keeps its value (R140, R29). -/
theorem pop_eq_ok {s t : State} {w : Word} :
    s.pop = .ok (w, t) ↔ ∃ _ : 0 < s.sp.val,
      w = s.stack[s.sp.val - 1]'(by omega) ∧ t = { s with sp := ⟨s.sp.val - 1, by omega⟩ } := by
  unfold State.pop
  split_ifs with h
  · simp [h]
  · simp [Nat.pos_of_ne_zero h, eq_comm]

theorem pop_eq_error {s : State} {f : Fault} : s.pop = .error f ↔ s.sp.val = 0 ∧ f = .stackUnderflow := by
  unfold State.pop
  split_ifs with h
  · simp [h, eq_comm]
  · simp [h]

/-! ### Accesses at I -/

/-- A store at I answers exactly when its range is in memory; it writes the bytes, advances, and does nothing else. -/
theorem storeAtI_eq_next {bs : List Byte} {s t : State} :
    storeAtI bs s = .next t ↔
      s.i12 + bs.length ≤ 4096 ∧ t = (s.setMem (s.mem.writeBytes s.i12 bs)).setPc (s.pc + 2) := by
  simp only [storeAtI, checked_eq_next, memWrite_eq_ok]
  constructor
  · rintro ⟨m, ⟨h, rfl⟩, ht⟩
    exact ⟨h, by simpa [eq_comm] using ht⟩
  · rintro ⟨h, rfl⟩
    exact ⟨_, ⟨h, rfl⟩, rfl⟩

theorem storeAtI_eq_fault {bs : List Byte} {s : State} {f : Fault} :
    storeAtI bs s = .fault f ↔ 4096 < s.i12 + bs.length ∧ f = .addressOutOfRange s.i12 bs.length := by
  simp [storeAtI, checked_eq_fault, memWrite_eq_error]

/-- A read at I answers as the rest does on the bytes read. -/
theorem readAtI_eq_next {n : Nat} {s t : State} {k : List Byte → Result} :
    readAtI n s k = .next t ↔ s.i12 + n ≤ 4096 ∧ k (s.mem.readBytes s.i12 n) = .next t := by
  simp only [readAtI, checked_eq_next, memRead_eq_ok]
  constructor
  · rintro ⟨bs, ⟨h, rfl⟩, ht⟩
    exact ⟨h, ht⟩
  · rintro ⟨h, ht⟩
    exact ⟨_, ⟨h, rfl⟩, ht⟩

theorem readAtI_eq_fault {n : Nat} {s : State} {k : List Byte → Result} {f : Fault} :
    readAtI n s k = .fault f ↔ (4096 < s.i12 + n ∧ f = .addressOutOfRange s.i12 n) ∨
      (s.i12 + n ≤ 4096 ∧ k (s.mem.readBytes s.i12 n) = .fault f) := by
  simp only [readAtI, checked_eq_fault, memRead_eq_error, memRead_eq_ok]
  constructor
  · rintro (h | ⟨bs, ⟨h, rfl⟩, hf⟩)
    · exact .inl h
    · exact .inr ⟨h, hf⟩
  · rintro (h | ⟨h, hf⟩)
    · exact .inl h
    · exact .inr ⟨_, ⟨h, rfl⟩, hf⟩

/-! ### Operands and flags as numbers -/

/-- A zero-extended address is the same number (R93). -/
theorem zextAddr_eq (nnn : Addr12) : zextAddr nnn = BitVec.ofNat 16 nnn.toNat := (BitVec.ofNat_toNat ..).symm

/-- The key a register names is its value modulo 16 (R154). -/
theorem val_keyOf (b : Byte) : (keyOf b).val = b.toNat % 16 := by simp [keyOf]

/-- The bit shifted out on the right (R168). -/
theorem lsbFlag_eq (b : Byte) : lsbFlag b = BitVec.ofNat 8 (b.toNat % 2) := by revert b; decide

/-- The bit shifted out on the left (R170). -/
theorem msbFlag_eq (b : Byte) : msbFlag b = BitVec.ofNat 8 (b.toNat / 128) := by revert b; decide

theorem i12_lt (s : State) : s.i12 < 4096 := Nat.mod_lt _ (by decide)

@[simp] theorem length_regsUpTo (s : State) (x : Reg) : (s.regsUpTo x).length = x.val + 1 := by
  simp [State.regsUpTo]

/-- Byte k of V0..VX is Vk. -/
theorem getElem_regsUpTo (s : State) (x : Reg) (k : Nat) (h : k < (s.regsUpTo x).length) :
    (s.regsUpTo x)[k] = s.getV ⟨k, by simp at h; omega⟩ := by
  simp [State.regsUpTo, State.getV]

@[simp] theorem length_bcdDigits (b : Byte) : (bcdDigits b).length = 3 := rfl

/-- Each register of the range gets its own byte, every other register keeps its value (R185). -/
theorem getElem_fillRegs (v : Vector Byte 16) (k : Nat) (bs : List Byte) (j : Nat) (hj : j < 16) :
    (fillRegs v k bs)[j] = if h : k ≤ j ∧ j - k < bs.length then bs[j - k] else v[j] := by
  induction bs generalizing v k with
  | nil => simp [fillRegs]
  | cons b bs ih =>
    rw [fillRegs, ih, Vector.getElem_setIfInBounds]
    by_cases hk : k = j
    · subst hk
      simp
    · by_cases h : k + 1 ≤ j ∧ j - (k + 1) < bs.length
      · have h' : k ≤ j ∧ j - k < (b :: bs).length := by simp only [List.length_cons]; omega
        rw [dif_pos h, dif_pos h', List.getElem_cons, dif_neg (by omega)]
        congr 1
      · have h' : ¬ (k ≤ j ∧ j - k < (b :: bs).length) := by simp only [List.length_cons]; omega
        rw [dif_neg h, dif_neg h', if_neg hk]

/-! ### Keys -/

/-- The lowest pressed key is pressed, and no lower one is (R201). -/
theorem lowestKey_eq_some {key : Vector Bool 16} {k : KeyNum} :
    lowestKey key = some k ↔ key[k] = true ∧ ∀ j : KeyNum, j < k → key[j] = false := by
  simp only [lowestKey, List.find?_eq_some_iff_getElem, List.length_finRange, List.getElem_finRange]
  constructor
  · rintro ⟨hk, i, hi, hik, hlt⟩
    have : i = k.val := by simpa [Fin.ext_iff] using hik
    subst this
    refine ⟨hk, fun j hj => ?_⟩
    have := hlt j.val hj
    simpa using this
  · rintro ⟨hk, hlt⟩
    exact ⟨hk, k.val, k.isLt, by simp, fun j hj => by simpa using hlt ⟨j, by omega⟩ hj⟩

theorem lowestKey_eq_none {key : Vector Bool 16} : lowestKey key = none ↔ ∀ k : KeyNum, key[k] = false := by
  simp [lowestKey, List.find?_eq_none]

/-! ### Fetch, decode, Step -/

theorem fetch_eq_ok {c : CoreState} {op : Word} :
    fetch c = .ok op ↔
      c.pc.toNat + 2 ≤ 4096 ∧ op = be16 (c.mem.read c.pc.toNat) (c.mem.read (c.pc.toNat + 1)) := by
  unfold fetch
  split_ifs with h <;> simp only [Config.memSize] at h
  · simp only [false_iff]; omega
  · simp only [Except.ok.injEq, eq_comm, iff_and_self]; omega

theorem fetch_eq_error {c : CoreState} {f : Fault} :
    fetch c = .error f ↔ 4096 < c.pc.toNat + 2 ∧ f = .addressOutOfRange c.pc.toNat 2 := by
  unfold fetch
  split_ifs with h <;> simp only [Config.memSize] at h
  · simp only [Except.error.injEq, eq_comm, iff_and_self]; omega
  · simp only [false_iff]; omega

theorem decodeStage_eq_ok {op : Word} {i : Instr} : decodeStage op = .ok i ↔ decodeWord op = some i := by
  unfold decodeStage
  cases decodeWord op <;> simp

theorem decodeStage_eq_error {op : Word} {f : Fault} :
    decodeStage op = .error f ↔ decodeWord op = none ∧ f = .unknownOpcode op := by
  unfold decodeStage
  cases decodeWord op <;> simp [eq_comm]

/-- Everything a Step that answers a next state has done: a fetch, a decode and one instruction. -/
theorem step_eq_next {s t : State} :
    step s = .next t ↔ ∃ op i, fetch s.core = .ok op ∧ decodeWord op = some i ∧ exec i s = .next t := by
  simp only [step, checked_eq_next, decodeStage_eq_ok]
  constructor
  · rintro ⟨op, ho, i, hi, h⟩
    exact ⟨op, i, ho, hi, h⟩
  · rintro ⟨op, i, ho, hi, h⟩
    exact ⟨op, ho, i, hi, h⟩

/-- Every way a Step faults: at the fetch, at decode, or in the instruction (R218). -/
theorem step_eq_fault {s : State} {f : Fault} :
    step s = .fault f ↔ fetch s.core = .error f ∨ (∃ op, fetch s.core = .ok op ∧ decodeStage op = .error f) ∨
      ∃ op i, fetch s.core = .ok op ∧ decodeWord op = some i ∧ exec i s = .fault f := by
  simp only [step, checked_eq_fault, decodeStage_eq_ok]
  constructor
  · rintro (h | ⟨op, ho, h | ⟨i, hi, h⟩⟩)
    · exact .inl h
    · exact .inr (.inl ⟨op, ho, h⟩)
    · exact .inr (.inr ⟨op, i, ho, hi, h⟩)
  · rintro (h | ⟨op, ho, h⟩ | ⟨op, i, ho, hi, h⟩)
    · exact .inl h
    · exact .inr ⟨op, ho, .inl h⟩
    · exact .inr ⟨op, ho, .inr ⟨i, hi, h⟩⟩

end Sys2Proof.Machine
end

