-- ==== Sys2Proof/Laws/Exec.lean ====
section
/-! SUPPORT. One lemma for each instruction that says what it answers in terms of the state's updates, so that no later
proof unfolds a meaning; the instructions with a check have one for their next state and one for their fault. -/

namespace Sys2Proof.Machine

variable (s : State) (x y : Reg) (nn : Byte) (nnn : Addr12)

theorem exec_cls : exec .cls s = .next ((s.setPix Display.clear).setPc (s.pc + 2)) := rfl

theorem exec_jp : exec (.jp nnn) s = .next (s.setPc (zextAddr nnn)) := rfl

theorem exec_jpV0 : exec (.jpV0 nnn) s = .next (s.setPc (zextAddr nnn + zextByte (s.getV V0))) := rfl

theorem exec_seImm : exec (.seImm x nn) s = .next (s.setPc (if s.getV x == nn then s.pc + 4 else s.pc + 2)) := rfl

theorem exec_sneImm : exec (.sneImm x nn) s = .next (s.setPc (if s.getV x != nn then s.pc + 4 else s.pc + 2)) := rfl

theorem exec_seReg : exec (.seReg x y) s = .next (s.setPc (if s.getV x == s.getV y then s.pc + 4 else s.pc + 2)) := rfl

theorem exec_sneReg : exec (.sneReg x y) s = .next (s.setPc (if s.getV x != s.getV y then s.pc + 4 else s.pc + 2)) :=
  rfl

theorem exec_skp : exec (.skp x) s = .next (s.setPc (if s.key[keyOf (s.getV x)] then s.pc + 4 else s.pc + 2)) := rfl

theorem exec_sknp : exec (.sknp x) s = .next (s.setPc (if !s.key[keyOf (s.getV x)] then s.pc + 4 else s.pc + 2)) := rfl

theorem exec_ldImm : exec (.ldImm x nn) s = .next ((s.setV x nn).setPc (s.pc + 2)) := rfl

theorem exec_addImm :
    exec (.addImm x nn) s = .next ((s.setV x (BitVec.ofNat 8 ((s.getV x).toNat + nn.toNat))).setPc (s.pc + 2)) := rfl

theorem exec_ldReg : exec (.ldReg x y) s = .next ((s.setV x (s.getV y)).setPc (s.pc + 2)) := rfl

theorem exec_orReg : exec (.orReg x y) s = .next ((s.setV x (s.getV x ||| s.getV y)).setPc (s.pc + 2)) := rfl

theorem exec_andReg : exec (.andReg x y) s = .next ((s.setV x (s.getV x &&& s.getV y)).setPc (s.pc + 2)) := rfl

theorem exec_xorReg : exec (.xorReg x y) s = .next ((s.setV x (s.getV x ^^^ s.getV y)).setPc (s.pc + 2)) := rfl

theorem exec_addReg : exec (.addReg x y) s =
    .next (((s.setV x (BitVec.ofNat 8 ((s.getV x).toNat + (s.getV y).toNat))).setV VF
      (carryFlag (s.getV x) (s.getV y))).setPc (s.pc + 2)) := rfl

theorem exec_subReg : exec (.subReg x y) s =
    .next (((s.setV x (subMod (s.getV x) (s.getV y))).setV VF (noBorrowFlag (s.getV x) (s.getV y))).setPc
      (s.pc + 2)) := rfl

theorem exec_shr : exec (.shr x y) s =
    .next (((s.setV x (BitVec.ofNat 8 ((s.getV x).toNat / 2))).setV VF (lsbFlag (s.getV x))).setPc (s.pc + 2)) := rfl

theorem exec_subnReg : exec (.subnReg x y) s =
    .next (((s.setV x (subMod (s.getV y) (s.getV x))).setV VF (noBorrowFlag (s.getV y) (s.getV x))).setPc
      (s.pc + 2)) := rfl

theorem exec_shl : exec (.shl x y) s =
    .next (((s.setV x (BitVec.ofNat 8 ((s.getV x).toNat * 2))).setV VF (msbFlag (s.getV x))).setPc (s.pc + 2)) := rfl

theorem exec_rnd : exec (.rnd x nn) s = .next ((s.drawn.setV x (s.supply.byte &&& nn)).setPc (s.pc + 2)) := rfl

theorem exec_ldI : exec (.ldI nnn) s = .next ((s.setI (zextAddr nnn)).setPc (s.pc + 2)) := rfl

theorem exec_addI : exec (.addI x) s = .next ((s.setI (s.i + zextByte (s.getV x))).setPc (s.pc + 2)) := rfl

theorem exec_ldF : exec (.ldF x) s = .next ((s.setI (glyphAddress (s.getV x))).setPc (s.pc + 2)) := rfl

theorem exec_ldVxDt : exec (.ldVxDt x) s = .next ((s.setV x s.dt).setPc (s.pc + 2)) := rfl

theorem exec_ldDtVx : exec (.ldDtVx x) s = .next ((s.setDt (s.getV x)).setPc (s.pc + 2)) := rfl

theorem exec_ldStVx : exec (.ldStVx x) s = .next ((s.setSt (s.getV x)).setPc (s.pc + 2)) := rfl

/-! ### FX0A -/

theorem exec_ldVxK : exec (.ldVxK x) s =
    match lowestKey s.key with
    | some k => .next ((s.setV x (keyByte k)).setPc (s.pc + 2))
    | none => .next (s.setPc s.pc) := rfl

theorem setPc_self : s.setPc s.pc = s := rfl

/-! ### The instructions with a check -/

variable {s x y nn nnn} {t : State} {f : Fault} {n : Nat}

theorem exec_ret_eq_next : exec .ret s = .next t ↔ ∃ _ : 0 < s.sp.val,
    t = { s with sp := ⟨s.sp.val - 1, by omega⟩, pc := s.stack[s.sp.val - 1]'(by omega) } := by
  show checked s.pop _ = _ ↔ _
  rw [checked_eq_next]
  constructor
  · rintro ⟨⟨w, u⟩, h, ht⟩
    obtain ⟨h0, rfl, rfl⟩ := pop_eq_ok.1 h
    exact ⟨h0, by simpa [State.setPc, eq_comm] using ht⟩
  · rintro ⟨h0, rfl⟩
    exact ⟨(_, _), pop_eq_ok.2 ⟨h0, rfl, rfl⟩, rfl⟩

theorem exec_ret_eq_fault : exec .ret s = .fault f ↔ s.sp.val = 0 ∧ f = .stackUnderflow := by
  show checked s.pop _ = _ ↔ _
  simp [checked_eq_fault, pop_eq_error]

theorem exec_call_eq_next : exec (.call nnn) s = .next t ↔ ∃ h : s.sp.val < 16,
    t = { s with stack := s.stack.set s.sp.val (s.pc + 2) h, sp := ⟨s.sp.val + 1, by omega⟩, pc := zextAddr nnn } := by
  show checked (s.push _) _ = _ ↔ _
  rw [checked_eq_next]
  constructor
  · rintro ⟨u, h, ht⟩
    obtain ⟨h0, rfl⟩ := push_eq_ok.1 h
    exact ⟨h0, by simpa [State.setPc, eq_comm] using ht⟩
  · rintro ⟨h0, rfl⟩
    exact ⟨_, push_eq_ok.2 ⟨h0, rfl⟩, rfl⟩

theorem exec_call_eq_fault : exec (.call nnn) s = .fault f ↔ s.sp.val = 16 ∧ f = .stackOverflow := by
  show checked (s.push _) _ = _ ↔ _
  simp [checked_eq_fault, push_eq_error]

theorem exec_ldB_eq_next : exec (.ldB x) s = .next t ↔ s.i12 + 3 ≤ 4096 ∧
    t = (s.setMem (s.mem.writeBytes s.i12 (bcdDigits (s.getV x)))).setPc (s.pc + 2) := storeAtI_eq_next

theorem exec_ldB_eq_fault : exec (.ldB x) s = .fault f ↔
    4096 < s.i12 + 3 ∧ f = .addressOutOfRange s.i12 3 := storeAtI_eq_fault

theorem exec_storeRegs_eq_next : exec (.storeRegs x) s = .next t ↔ s.i12 + (x.val + 1) ≤ 4096 ∧
    t = (s.setMem (s.mem.writeBytes s.i12 (s.regsUpTo x))).setPc (s.pc + 2) := by
  have := storeAtI_eq_next (bs := s.regsUpTo x) (s := s) (t := t)
  rwa [length_regsUpTo] at this

theorem exec_storeRegs_eq_fault : exec (.storeRegs x) s = .fault f ↔
    4096 < s.i12 + (x.val + 1) ∧ f = .addressOutOfRange s.i12 (x.val + 1) := by
  have := storeAtI_eq_fault (bs := s.regsUpTo x) (s := s) (f := f)
  rwa [length_regsUpTo] at this

theorem exec_loadRegs_eq_next : exec (.loadRegs x) s = .next t ↔ s.i12 + (x.val + 1) ≤ 4096 ∧
    t = (s.setRegs (fillRegs s.v 0 (s.mem.readBytes s.i12 (x.val + 1)))).setPc (s.pc + 2) := by
  show readAtI _ _ _ = _ ↔ _
  rw [readAtI_eq_next]
  simp [eq_comm]

theorem exec_loadRegs_eq_fault : exec (.loadRegs x) s = .fault f ↔
    4096 < s.i12 + (x.val + 1) ∧ f = .addressOutOfRange s.i12 (x.val + 1) := by
  show readAtI _ _ _ = _ ↔ _
  rw [readAtI_eq_fault]
  simp

/-- What DXYN leaves, through the sprite of the bytes at I12. -/
theorem exec_drw_eq_next : exec (.drw x y n) s = .next t ↔ s.i12 + n ≤ 4096 ∧
    t = ((s.setPix (drawSprite s.pix (s.getV x) (s.getV y) (s.mem.readBytes s.i12 n)).pix).setV VF
      (flagByte (drawSprite s.pix (s.getV x) (s.getV y) (s.mem.readBytes s.i12 n)).hit)).setPc (s.pc + 2) := by
  show readAtI _ _ _ = _ ↔ _
  rw [readAtI_eq_next]
  simp [eq_comm]

theorem exec_drw_eq_fault : exec (.drw x y n) s = .fault f ↔
    4096 < s.i12 + n ∧ f = .addressOutOfRange s.i12 n := by
  show readAtI _ _ _ = _ ↔ _
  rw [readAtI_eq_fault]
  simp

end Sys2Proof.Machine
end

