-- ==== Sys2Proof/Laws/PerInstr.lean ====
section
/-! SUPPORT. Statements about every instruction as syntax, one lemma for each constructor: a well-formed instruction is
encoded as a word of the opcode map (R95, R96). -/

namespace Sys2Proof.Laws.EncodesWellFormed

/-- The encoding of a well-formed instruction matches a row of the opcode map. -/
def Statement (i : Instr) : Prop := i.wellFormed = true → wordWellFormed (encode i) = true

/-- One matching row is enough. -/
theorem of_row {op : Word} (r : OpcodeRow) (hr : r ∈ opcodeRows) (h : op &&& r.mask = r.bits) :
    wordWellFormed op = true :=
  List.any_eq_true.2 ⟨r, hr, by simp [OpcodeRow.matches, h]⟩

theorem of_formatA (c : BitVec 4) (nnn : Addr12) (hr : ⟨0xF000, formatA c 0⟩ ∈ opcodeRows) :
    wordWellFormed (formatA c nnn) = true :=
  of_row _ hr (by rw [and_C, fieldC_formatA])

theorem of_formatI (c : BitVec 4) (x : Reg) (nn : Byte) (hr : ⟨0xF000, formatA c 0⟩ ∈ opcodeRows) :
    wordWellFormed (formatI c x nn) = true :=
  of_row _ hr (by rw [and_C, fieldC_formatI])

theorem of_formatS (c : BitVec 4) (x : Reg) (nn : Byte) (hr : ⟨0xF0FF, formatI c 0 nn⟩ ∈ opcodeRows) :
    wordWellFormed (formatI c x nn) = true :=
  of_row _ hr (by rw [and_C_NN, fieldC_formatI, fieldNN_formatI])

theorem of_formatR (c : BitVec 4) (x y : Reg) (n : BitVec 4) (hr : ⟨0xF00F, formatR c 0 0 n⟩ ∈ opcodeRows) :
    wordWellFormed (formatR c x y n) = true :=
  of_row _ hr (by rw [and_C_N, fieldC_formatR, fieldN_formatR])

theorem of_formatD (c : BitVec 4) (x y : Reg) (n : BitVec 4) (hr : ⟨0xF000, formatA c 0⟩ ∈ opcodeRows) :
    wordWellFormed (formatR c x y n) = true :=
  of_row _ hr (by rw [and_C, fieldC_formatR])

theorem cls : Statement .cls := fun _ => by decide
theorem ret : Statement .ret := fun _ => by decide
theorem jp (nnn : Addr12) : Statement (.jp nnn) := fun _ => of_formatA _ _ (by decide)
theorem call (nnn : Addr12) : Statement (.call nnn) := fun _ => of_formatA _ _ (by decide)
theorem seImm (x : Reg) (nn : Byte) : Statement (.seImm x nn) := fun _ => of_formatI _ _ _ (by decide)
theorem sneImm (x : Reg) (nn : Byte) : Statement (.sneImm x nn) := fun _ => of_formatI _ _ _ (by decide)
theorem seReg (x y : Reg) : Statement (.seReg x y) := fun _ => of_formatR _ _ _ _ (by decide)
theorem ldImm (x : Reg) (nn : Byte) : Statement (.ldImm x nn) := fun _ => of_formatI _ _ _ (by decide)
theorem addImm (x : Reg) (nn : Byte) : Statement (.addImm x nn) := fun _ => of_formatI _ _ _ (by decide)
theorem ldReg (x y : Reg) : Statement (.ldReg x y) := fun _ => of_formatR _ _ _ _ (by decide)
theorem orReg (x y : Reg) : Statement (.orReg x y) := fun _ => of_formatR _ _ _ _ (by decide)
theorem andReg (x y : Reg) : Statement (.andReg x y) := fun _ => of_formatR _ _ _ _ (by decide)
theorem xorReg (x y : Reg) : Statement (.xorReg x y) := fun _ => of_formatR _ _ _ _ (by decide)
theorem addReg (x y : Reg) : Statement (.addReg x y) := fun _ => of_formatR _ _ _ _ (by decide)
theorem subReg (x y : Reg) : Statement (.subReg x y) := fun _ => of_formatR _ _ _ _ (by decide)
theorem shr (x y : Reg) : Statement (.shr x y) := fun _ => of_formatR _ _ _ _ (by decide)
theorem subnReg (x y : Reg) : Statement (.subnReg x y) := fun _ => of_formatR _ _ _ _ (by decide)
theorem shl (x y : Reg) : Statement (.shl x y) := fun _ => of_formatR _ _ _ _ (by decide)
theorem sneReg (x y : Reg) : Statement (.sneReg x y) := fun _ => of_formatR _ _ _ _ (by decide)
theorem ldI (nnn : Addr12) : Statement (.ldI nnn) := fun _ => of_formatA _ _ (by decide)
theorem jpV0 (nnn : Addr12) : Statement (.jpV0 nnn) := fun _ => of_formatA _ _ (by decide)
theorem rnd (x : Reg) (nn : Byte) : Statement (.rnd x nn) := fun _ => of_formatI _ _ _ (by decide)
theorem drw (x y : Reg) (n : Nat) : Statement (.drw x y n) := fun _ => of_formatD _ _ _ _ (by decide)
theorem skp (x : Reg) : Statement (.skp x) := fun _ => of_formatS _ _ _ (by decide)
theorem sknp (x : Reg) : Statement (.sknp x) := fun _ => of_formatS _ _ _ (by decide)
theorem ldVxDt (x : Reg) : Statement (.ldVxDt x) := fun _ => of_formatS _ _ _ (by decide)
theorem ldVxK (x : Reg) : Statement (.ldVxK x) := fun _ => of_formatS _ _ _ (by decide)
theorem ldDtVx (x : Reg) : Statement (.ldDtVx x) := fun _ => of_formatS _ _ _ (by decide)
theorem ldStVx (x : Reg) : Statement (.ldStVx x) := fun _ => of_formatS _ _ _ (by decide)
theorem addI (x : Reg) : Statement (.addI x) := fun _ => of_formatS _ _ _ (by decide)
theorem ldF (x : Reg) : Statement (.ldF x) := fun _ => of_formatS _ _ _ (by decide)
theorem ldB (x : Reg) : Statement (.ldB x) := fun _ => of_formatS _ _ _ (by decide)
theorem storeRegs (x : Reg) : Statement (.storeRegs x) := fun _ => of_formatS _ _ _ (by decide)
theorem loadRegs (x : Reg) : Statement (.loadRegs x) := fun _ => of_formatS _ _ _ (by decide)

end Sys2Proof.Laws.EncodesWellFormed
end

