-- ==== Sys2Proof/Laws/Transactions.lean ====
section
/-! SUPPORT. What the host's Step(rand) and Tick can do; later proofs cite these and do not unfold them. -/

namespace Sys2Proof.Machine

/-! ### The byte given to a Step -/

@[simp] theorem given_core (c : CoreState) (r : Byte) : (c.given r).core = c := rfl

/-- The supply names the byte, and so it is the byte the Step gets. -/
@[simp] theorem given_byte (c : CoreState) (r : Byte) : (c.given r).supply.byte = r := rfl

/-- Step(rand) goes on exactly when the Step with that byte does, and leaves its CORE (R36). -/
theorem stepWith_eq_next {c d : CoreState} {r : Byte} :
    stepWith r c = .next d ↔ ∃ t, step (c.given r) = .next t ∧ d = t.core := by
  unfold stepWith
  cases step (c.given r) <;> simp [eq_comm]

/-- Step(rand) faults exactly as the Step with that byte does (R128). -/
theorem stepWith_eq_fault {c : CoreState} {r : Byte} {f : Fault} :
    stepWith r c = .fault f ↔ step (c.given r) = .fault f := by
  unfold stepWith
  cases step (c.given r) <;> simp

/-- When the fetched word decodes, Step(rand) goes on exactly when the instruction does. -/
theorem stepWith_eq_next_of_fetch {c d : CoreState} {r : Byte} {op : Word} {i : Instr} (hf : fetch c = .ok op)
    (hd : decodeWord op = some i) :
    stepWith r c = .next d ↔ ∃ t, exec i (c.given r) = .next t ∧ d = t.core := by
  simp [stepWith_eq_next, step, hf, decodeStage, hd]

/-! ### Tick, KeySet and Load, field by field -/

section
variable (c : CoreState) (k : KeyNum) (b : Bool) (bytes : List Byte)

@[simp] theorem tick_dt : c.tick.dt = countDown c.dt := rfl
@[simp] theorem tick_st : c.tick.st = countDown c.st := rfl
@[simp] theorem tick_v : c.tick.v = c.v := rfl
@[simp] theorem tick_i : c.tick.i = c.i := rfl
@[simp] theorem tick_pc : c.tick.pc = c.pc := rfl
@[simp] theorem tick_stack : c.tick.stack = c.stack := rfl
@[simp] theorem tick_sp : c.tick.sp = c.sp := rfl
@[simp] theorem tick_mem : c.tick.mem = c.mem := rfl
@[simp] theorem tick_key : c.tick.key = c.key := rfl
@[simp] theorem tick_pix : c.tick.pix = c.pix := rfl
@[simp] theorem fetch_tick : fetch c.tick = fetch c := rfl
@[simp] theorem keySet_v : (c.keySet k b).v = c.v := rfl
@[simp] theorem keySet_i : (c.keySet k b).i = c.i := rfl
@[simp] theorem keySet_pc : (c.keySet k b).pc = c.pc := rfl
@[simp] theorem keySet_stack : (c.keySet k b).stack = c.stack := rfl
@[simp] theorem keySet_sp : (c.keySet k b).sp = c.sp := rfl
@[simp] theorem keySet_dt : (c.keySet k b).dt = c.dt := rfl
@[simp] theorem keySet_st : (c.keySet k b).st = c.st := rfl
@[simp] theorem keySet_mem : (c.keySet k b).mem = c.mem := rfl
@[simp] theorem keySet_key : (c.keySet k b).key = c.key.set k b := rfl
@[simp] theorem keySet_pix : (c.keySet k b).pix = c.pix := rfl
@[simp] theorem fetch_keySet : fetch (c.keySet k b) = fetch c := rfl
@[simp] theorem load_v : (c.load bytes).v = c.v := rfl
@[simp] theorem load_i : (c.load bytes).i = c.i := rfl
@[simp] theorem load_pc : (c.load bytes).pc = c.pc := rfl
@[simp] theorem load_stack : (c.load bytes).stack = c.stack := rfl
@[simp] theorem load_sp : (c.load bytes).sp = c.sp := rfl
@[simp] theorem load_dt : (c.load bytes).dt = c.dt := rfl
@[simp] theorem load_st : (c.load bytes).st = c.st := rfl
@[simp] theorem load_mem : (c.load bytes).mem = c.mem.writeBytes Config.progBase bytes := rfl
@[simp] theorem load_key : (c.load bytes).key = c.key := rfl
@[simp] theorem load_pix : (c.load bytes).pix = c.pix := rfl

end

/-- A countdown is the truncated difference (R225). -/
theorem toNat_countDown (b : Byte) : (countDown b).toNat = b.toNat - 1 := by revert b; decide

end Sys2Proof.Machine
end

