-- ==== Sys2Proof/Tests/Slice0.lean ====
section
/-! SUPPORT. This model's own tests. Expected results come from outside the model: the words are written out bit by bit
from the formats of spec/30_encoding.md R92 and R96, the results of Steps are the vectors of spec/95_test_vectors.md,
named in each test's comment. The last part shows, for each statement with hypotheses, a state and operands that meet
them all. -/

namespace Sys2Proof.Tests

open Sys2Proof.Machine Sys2Proof.Claim

/-! ### Helpers -/

/-- The state after Reset with some registers set. -/
def withRegs (l : List (Reg × Byte)) : State := l.foldl (fun s p => s.setV p.1 p.2) State.reset

/-- A word at pc, one Step, and a check of the next state. -/
def stepsTo (w : Nat) (s : State) (p : State → Bool) : Bool :=
  match step (s.withFetchWord 16 w) with
  | .next t => p t
  | .fault _ => false
  | .refused _ => false

/-- A word at pc, one Step, and its fault. -/
def stepFaults (w : Nat) (s : State) (f : Fault) : Bool :=
  match step (s.withFetchWord 16 w) with
  | .next _ => false
  | .fault g => g == f
  | .refused _ => false

/-- Bytes placed in memory by the test bench. -/
def poke (a : Nat) (bs : List Byte) (s : State) : State := s.setMem (s.mem.writeBytes a bs)

/-- A key pressed by the host. -/
def press (k : KeyNum) (s : State) : State := s.onCore fun c => c.keySet k true

/-! ### WellFormed refuses ill-formed terms -/

theorem test_wf_sprite_height_16_refused : (Instr.drw 0 1 16).wellFormed = false := by decide
theorem test_wf_sprite_height_15_taken : (Instr.drw 0 1 15).wellFormed = true := by decide
theorem test_wf_word_0000_refused : wordWellFormed 0x0000 = false := by decide
theorem test_wf_word_00E1_refused : wordWellFormed 0x00E1 = false := by decide
theorem test_wf_word_5121_refused : wordWellFormed 0x5121 = false := by decide
theorem test_wf_word_8128_refused : wordWellFormed 0x8128 = false := by decide
theorem test_wf_word_E19F_refused : wordWellFormed 0xE19F = false := by decide
theorem test_wf_word_F10B_refused : wordWellFormed 0xF10B = false := by decide
theorem test_wf_word_F165_taken : wordWellFormed 0xF165 = true := by decide
theorem test_wf_image_3585_refused : imageWellFormed (List.replicate 3585 0) = false := by
  rw [imageWellFormed, List.length_replicate]; decide
theorem test_wf_image_3584_taken : imageWellFormed (List.replicate 3584 0) = true := by
  rw [imageWellFormed, List.length_replicate]; decide

/-! ### Decoding: every constructor, its word written out bit by bit (R92, R96), X = A, Y = B, N = 5, NN = 7F, NNN = ABC -/

theorem test_decode_cls : decodeWord 0b0000000011100000 = some (.cls) := by decide
theorem test_decode_ret : decodeWord 0b0000000011101110 = some (.ret) := by decide
theorem test_decode_jp : decodeWord 0b0001101010111100 = some (.jp 0xABC) := by decide
theorem test_decode_call : decodeWord 0b0010101010111100 = some (.call 0xABC) := by decide
theorem test_decode_seImm : decodeWord 0b0011101001111111 = some (.seImm 0xA 0x7F) := by decide
theorem test_decode_sneImm : decodeWord 0b0100101001111111 = some (.sneImm 0xA 0x7F) := by decide
theorem test_decode_seReg : decodeWord 0b0101101010110000 = some (.seReg 0xA 0xB) := by decide
theorem test_decode_ldImm : decodeWord 0b0110101001111111 = some (.ldImm 0xA 0x7F) := by decide
theorem test_decode_addImm : decodeWord 0b0111101001111111 = some (.addImm 0xA 0x7F) := by decide
theorem test_decode_ldReg : decodeWord 0b1000101010110000 = some (.ldReg 0xA 0xB) := by decide
theorem test_decode_orReg : decodeWord 0b1000101010110001 = some (.orReg 0xA 0xB) := by decide
theorem test_decode_andReg : decodeWord 0b1000101010110010 = some (.andReg 0xA 0xB) := by decide
theorem test_decode_xorReg : decodeWord 0b1000101010110011 = some (.xorReg 0xA 0xB) := by decide
theorem test_decode_addReg : decodeWord 0b1000101010110100 = some (.addReg 0xA 0xB) := by decide
theorem test_decode_subReg : decodeWord 0b1000101010110101 = some (.subReg 0xA 0xB) := by decide
theorem test_decode_shr : decodeWord 0b1000101010110110 = some (.shr 0xA 0xB) := by decide
theorem test_decode_subnReg : decodeWord 0b1000101010110111 = some (.subnReg 0xA 0xB) := by decide
theorem test_decode_shl : decodeWord 0b1000101010111110 = some (.shl 0xA 0xB) := by decide
theorem test_decode_sneReg : decodeWord 0b1001101010110000 = some (.sneReg 0xA 0xB) := by decide
theorem test_decode_ldI : decodeWord 0b1010101010111100 = some (.ldI 0xABC) := by decide
theorem test_decode_jpV0 : decodeWord 0b1011101010111100 = some (.jpV0 0xABC) := by decide
theorem test_decode_rnd : decodeWord 0b1100101001111111 = some (.rnd 0xA 0x7F) := by decide
theorem test_decode_drw : decodeWord 0b1101101010110101 = some (.drw 0xA 0xB 5) := by decide
theorem test_decode_skp : decodeWord 0b1110101010011110 = some (.skp 0xA) := by decide
theorem test_decode_sknp : decodeWord 0b1110101010100001 = some (.sknp 0xA) := by decide
theorem test_decode_ldVxDt : decodeWord 0b1111101000000111 = some (.ldVxDt 0xA) := by decide
theorem test_decode_ldVxK : decodeWord 0b1111101000001010 = some (.ldVxK 0xA) := by decide
theorem test_decode_ldDtVx : decodeWord 0b1111101000010101 = some (.ldDtVx 0xA) := by decide
theorem test_decode_ldStVx : decodeWord 0b1111101000011000 = some (.ldStVx 0xA) := by decide
theorem test_decode_addI : decodeWord 0b1111101000011110 = some (.addI 0xA) := by decide
theorem test_decode_ldF : decodeWord 0b1111101000101001 = some (.ldF 0xA) := by decide
theorem test_decode_ldB : decodeWord 0b1111101000110011 = some (.ldB 0xA) := by decide
theorem test_decode_storeRegs : decodeWord 0b1111101001010101 = some (.storeRegs 0xA) := by decide
theorem test_decode_loadRegs : decodeWord 0b1111101001100101 = some (.loadRegs 0xA) := by decide

/-- TE12 to TE16: no instruction. -/
theorem test_decode_unknown :
    [0x0000, 0x00E1, 0x00EF, 0x00FF, 0x0123, 0x5121, 0x512F, 0x9121, 0x8128, 0x812D, 0x812F, 0xE19F, 0xE100, 0xE1A0,
     0xF100, 0xF10B, 0xF11F, 0xF156, 0xF1FF].all (fun w => decodeWord w == none) = true := by decide

theorem test_decode_table_word : decodeTableWord 16 0x6A02 = some (.ldImm 0xA 0x02) := by decide
theorem test_decode_bytes_truncated : decodeBytes [0x6A] = .error .truncated := by decide
theorem test_encode_drw : encode (.drw 0xA 0xB 5) = 0xDAB5 := by decide

/-! ### One Step of each instruction (the vectors of spec/95_test_vectors.md) -/

/-- TD23, on a display with one pixel set. -/
theorem test_cls :
    stepsTo 0x00E0 ((withRegs [(0xF, 0x55)]).setPix (Display.clear.toggle 3 2)) (fun t => !t.pix.pixel 3 2 && t.v[15] == 0x55 && t.pc == 0x202) = true := by decide
/-- TF11. -/
theorem test_ret :
    stepsTo 0x00EE ({ State.reset with sp := 2, stack := (State.reset.stack.set 0 0x202).set 1 0xABC }) (fun t => t.pc == 0xABC && t.sp == 1 && t.stack[1] == 0xABC) = true := by decide
/-- TF7. -/
theorem test_ret_underflow :
    stepFaults 0x00EE (State.reset) (.stackUnderflow) = true := by decide
/-- TF1. -/
theorem test_jp :
    stepsTo 0x1234 (State.reset) (fun t => t.pc == 0x234 && t.sp == 0) = true := by decide
/-- TF10, with pc = 0x0FFE. -/
theorem test_call_top :
    stepsTo 0x2300 (State.reset.setPc 0xFFE) (fun t => t.stack[0] == 0x1000 && t.sp == 1 && t.pc == 0x300) = true := by decide
/-- TF6. -/
theorem test_call_overflow :
    stepFaults 0x2300 ({ State.reset with sp := 16 }) (.stackOverflow) = true := by decide
/-- TF9. -/
theorem test_jpV0 :
    stepsTo 0xBFFF (withRegs [(0, 0xFF)]) (fun t => t.pc == 0x10FE) = true := by decide
/-- TS1. -/
theorem test_seImm :
    stepsTo 0x3A02 (withRegs [(0xA, 2)]) (fun t => t.pc == 0x204) = true := by decide
/-- TS17, with pc = 0x0FFE. -/
theorem test_seImm_top :
    stepsTo 0x3000 (State.reset.setPc 0xFFE) (fun t => t.pc == 0x1002) = true := by decide
/-- TS3 and TS4. -/
theorem test_sneImm :
    stepsTo 0x4A02 (withRegs [(0xA, 2)]) (fun t => t.pc == 0x202) = true ∧
    stepsTo 0x4A03 (withRegs [(0xA, 2)]) (fun t => t.pc == 0x204) = true := by decide
/-- TS5 and TS6. -/
theorem test_seReg :
    stepsTo 0x5120 (withRegs [(1, 7), (2, 7)]) (fun t => t.pc == 0x204) = true ∧
    stepsTo 0x5120 (withRegs [(1, 7), (2, 8)]) (fun t => t.pc == 0x202) = true := by decide
/-- TS8 and TS9. -/
theorem test_sneReg :
    stepsTo 0x9120 (withRegs [(1, 7), (2, 7)]) (fun t => t.pc == 0x202) = true ∧
    stepsTo 0x9120 (withRegs [(1, 7), (2, 8)]) (fun t => t.pc == 0x204) = true := by decide
/-- TS13: the low nibble selects the key. -/
theorem test_skp :
    stepsTo 0xE39E (press 10 (withRegs [(3, 0x1A)])) (fun t => t.pc == 0x204) = true := by decide
/-- TS14 and TS16. -/
theorem test_sknp :
    stepsTo 0xE3A1 (press 10 (withRegs [(3, 0x0A)])) (fun t => t.pc == 0x202) = true ∧
    stepsTo 0xE3A1 (withRegs [(3, 0xFF)]) (fun t => t.pc == 0x204) = true := by decide
/-- S2. -/
theorem test_ldImm :
    stepsTo 0x6A02 (State.reset) (fun t => t.v[10] == 2 && t.pc == 0x202) = true := by decide
/-- S5, second Step, and TA2. -/
theorem test_addImm :
    stepsTo 0x7AFF (withRegs [(0xA, 5), (0xF, 0x77)]) (fun t => t.v[10] == 4 && t.v[15] == 0x77) = true ∧
    stepsTo 0x7FFF (withRegs [(0xF, 2)]) (fun t => t.v[15] == 1) = true := by decide
/-- TA4. -/
theorem test_ldReg :
    stepsTo 0x8120 (withRegs [(1, 0x11), (2, 0x22)]) (fun t => t.v[1] == 0x22 && t.v[2] == 0x22) = true := by decide
/-- TA7. -/
theorem test_orReg :
    stepsTo 0x8121 (withRegs [(1, 0xF0), (2, 0x0F), (0xF, 1)]) (fun t => t.v[1] == 0xFF && t.v[15] == 1) = true := by decide
/-- TA8. -/
theorem test_andReg :
    stepsTo 0x8122 (withRegs [(1, 0xF0), (2, 0x3C), (0xF, 1)]) (fun t => t.v[1] == 0x30 && t.v[15] == 1) = true := by decide
/-- TA9. -/
theorem test_xorReg :
    stepsTo 0x8123 (withRegs [(1, 0xF0), (2, 0x3C), (0xF, 1)]) (fun t => t.v[1] == 0xCC && t.v[15] == 1) = true := by decide
/-- S6. -/
theorem test_addReg :
    stepsTo 0x8AB4 (withRegs [(0xA, 250), (0xB, 10)]) (fun t => t.v[10] == 4 && t.v[15] == 1 && t.v[11] == 10) = true := by decide
/-- TA20 and TA21. -/
theorem test_addReg_flag_wins :
    stepsTo 0x8F14 (withRegs [(0xF, 0xFF), (1, 1)]) (fun t => t.v[15] == 1) = true ∧
    stepsTo 0x8F14 (withRegs [(0xF, 1), (1, 1)]) (fun t => t.v[15] == 0) = true := by decide
/-- The table of 2.4, rows 2 and 3. -/
theorem test_subReg :
    stepsTo 0x8125 (withRegs [(1, 0x10), (2, 0x20), (0xF, 0x55)]) (fun t => t.v[1] == 0xF0 && t.v[15] == 0) = true ∧
    stepsTo 0x8125 (withRegs [(1, 7), (2, 7)]) (fun t => t.v[1] == 0 && t.v[15] == 1) = true := by decide
/-- TA36. -/
theorem test_subReg_Y_is_flag :
    stepsTo 0x81F5 (withRegs [(1, 5), (0xF, 7)]) (fun t => t.v[1] == 0xFE && t.v[15] == 0) = true := by decide
/-- The table of 2.4, rows 1 and 2. -/
theorem test_subnReg :
    stepsTo 0x8127 (withRegs [(1, 0x20), (2, 0x10)]) (fun t => t.v[1] == 0xF0 && t.v[15] == 0) = true ∧
    stepsTo 0x8127 (withRegs [(1, 0x10), (2, 0x20)]) (fun t => t.v[1] == 0x10 && t.v[15] == 1 && t.v[2] == 0x20) = true := by decide
/-- The table of 2.4: VX is shifted, not VY. -/
theorem test_shr :
    stepsTo 0x8126 (withRegs [(1, 0x81), (2, 0xEE)]) (fun t => t.v[1] == 0x40 && t.v[15] == 1 && t.v[2] == 0xEE) = true := by decide
/-- TA29 and TA30. -/
theorem test_shr_flag_wins :
    stepsTo 0x8F06 (withRegs [(0xF, 3)]) (fun t => t.v[15] == 1) = true ∧
    stepsTo 0x8F06 (withRegs [(0xF, 2)]) (fun t => t.v[15] == 0) = true := by decide
/-- The table of 2.4. -/
theorem test_shl :
    stepsTo 0x812E (withRegs [(1, 0x81), (2, 0xEE)]) (fun t => t.v[1] == 0x02 && t.v[15] == 1 && t.v[2] == 0xEE) = true := by decide
/-- TA33. -/
theorem test_shl_flag_wins :
    stepsTo 0x8F0E (withRegs [(0xF, 0xC0)]) (fun t => t.v[15] == 1) = true := by decide
/-- TA40, the Step's byte supplied. -/
theorem test_rnd :
    stepsTo 0xC30F (State.reset.setRand (some 0xB7)) (fun t => t.v[3] == 0x07 && t.pc == 0x202) = true := by decide
/-- TA43. -/
theorem test_rnd_to_VF :
    stepsTo 0xCF0F (State.reset.setRand (some 0x3C)) (fun t => t.v[15] == 0x0C) = true := by decide
/-- TM1. -/
theorem test_ldI :
    stepsTo 0xA2EA (State.reset.setI 0xFFFF) (fun t => t.i == 0x2EA) = true := by decide
/-- TM4 and TM3. -/
theorem test_addI :
    stepsTo 0xF21E ((withRegs [(2, 1), (0xF, 0x55)]).setI 0xFFFF) (fun t => t.i == 0 && t.v[15] == 0x55) = true ∧
    stepsTo 0xF21E ((withRegs [(2, 1)]).setI 0x0FFF) (fun t => t.i == 0x1000) = true := by decide
/-- S8 and TM9. -/
theorem test_ldF :
    stepsTo 0xFA29 (withRegs [(0xA, 0xC)]) (fun t => t.i == 60) = true ∧
    stepsTo 0xF129 (withRegs [(1, 0xFF)]) (fun t => t.i == 0x4FB) = true := by decide
/-- TM12: the address is masked, I is not. -/
theorem test_ldB :
    stepsTo 0xF133 ((withRegs [(1, 123)]).setI 0x1300) (fun t => t.mem.readBytes 0x300 3 == [1, 2, 3] && t.i == 0x1300) = true := by decide
/-- TM11. -/
theorem test_ldB_fault :
    stepFaults 0xF133 ((withRegs [(1, 123)]).setI 0x0FFE) (.addressOutOfRange 0xFFE 3) = true := by decide
/-- TM13. -/
theorem test_storeRegs :
    stepsTo 0xF255 ((withRegs [(0, 0xAA), (1, 0xBB), (2, 0xCC), (3, 0xDD)]).setI 0x400) (fun t => t.mem.readBytes 0x400 4 == [0xAA, 0xBB, 0xCC, 0] && t.i == 0x400) = true := by decide
/-- TM17. -/
theorem test_storeRegs_fault :
    stepFaults 0xFF55 (State.reset.setI 0xFF1) (.addressOutOfRange 0xFF1 16) = true := by decide
/-- TM19. -/
theorem test_loadRegs :
    stepsTo 0xF265 (poke 0x400 [0x11, 0x22, 0x33, 0x44] ((withRegs [(3, 0x99)]).setI 0x400)) (fun t => t.v[0] == 0x11 && t.v[1] == 0x22 && t.v[2] == 0x33 && t.v[3] == 0x99) = true := by decide
/-- TM20. -/
theorem test_loadRegs_fault :
    stepFaults 0xF265 (State.reset.setI 0x1FFE) (.addressOutOfRange 0xFFE 3) = true := by decide
/-- TD1, its corners: the sprite at (60, 30) reaches (3, 1), and (61, 31) stays unset. -/
theorem test_drw_wraps :
    stepsTo 0xD014 (poke 0x300 [0xFF, 0x81, 0x81, 0xFF] ((withRegs [(0, 60), (1, 30)]).setI 0x300)) (fun t => t.pix.pixel 60 30 && t.pix.pixel 3 1 && t.pix.pixel 60 31 && !t.pix.pixel 61 31 && t.v[15] == 0) = true := by decide
/-- S9, second Step: row 0 of the display is set from 0 to 7. -/
theorem test_drw_collides :
    stepsTo 0xD011 ((poke 0x300 [0xFF] (State.reset.setI 0x300)).setPix ((Display.clear.toggle 0 0).toggle 7 0)) (fun t => !t.pix.pixel 0 0 && t.pix.pixel 1 0 && !t.pix.pixel 7 0 && t.v[15] == 1) = true := by decide
/-- TK1. -/
theorem test_ldVxDt :
    stepsTo 0xF307 (State.reset.setDt 0x2A) (fun t => t.v[3] == 0x2A && t.dt == 0x2A) = true := by decide
/-- TK2. -/
theorem test_ldDtVx :
    stepsTo 0xF315 ((withRegs [(3, 0x3C)]).setDt 7) (fun t => t.dt == 0x3C) = true := by decide
/-- TK3. -/
theorem test_ldStVx :
    stepsTo 0xF318 (withRegs [(3, 5)]) (fun t => t.st == 5 && t.core.soundActive) = true := by decide
/-- TK4. -/
theorem test_ldVxK_waits :
    step ((withRegs [(5, 0x99)]).withFetchWord 16 0xF50A) = .next ((withRegs [(5, 0x99)]).withFetchWord 16 0xF50A) := by rfl
/-- TK5. -/
theorem test_ldVxK_takes_lowest :
    stepsTo 0xF50A (press 7 (press 9 State.reset)) (fun t => t.v[5] == 7 && t.key[7] && t.key[9] && t.pc == 0x202) = true := by decide

/-! ### Fetch, decode and the host's transactions -/

/-- TX2. -/
theorem test_fetch_at_FFE :
    stepsTo 0x6A01 (State.reset.setPc 0xFFE) (fun t => t.v[10] == 1 && t.pc == 0x1000) = true := by decide
/-- TX3 and TX8: never UnknownOpcode. -/
theorem test_fetch_at_FFF :
    step (State.reset.setPc 0xFFF) = .fault (.addressOutOfRange 0xFFF 2) := by rfl
/-- TE12: the first Step after Reset without a Load. -/
theorem test_unknown_after_reset :
    step State.reset = .fault (.unknownOpcode 0x0000) := by rfl
/-- TX8. -/
theorem test_unknown_before_stack :
    stepFaults 0x5121 ({ State.reset with sp := 16 }) (.unknownOpcode 0x5121) = true := by decide
/-- S1. -/
theorem test_load :
    (CoreState.reset.load [0x6A, 0x02]).mem = [(0x200, 0x6A), (0x201, 0x02)] := by decide
/-- S1 and S2: a loaded program runs from 0x200. -/
theorem test_load_then_step :
    ((((Session.beforeReset.transact .reset).1.transact (.load [0x6A, 0x02])).1.transact (.step 0)).2) = .ok := by decide
/-- S2: the Step transaction leaves the core in the next state. -/
theorem test_ok_step_transaction :
    (match (Session.transact (.running true (State.reset.withFetchWord 16 0x6A02).core) (.step 0)).1 with
      | .running b t => !b && t.v[10] == 2 && t.pc == 0x202
      | .beforeReset => false) = true := by decide
/-- R256. -/
theorem test_load_after_step_refused :
    (Session.transact (.running false CoreState.reset) (.load [])).2 = .refused .loadOutOfTurn := by decide
/-- TK9. -/
theorem test_ticks :
    ((ticks 2 { CoreState.reset with dt := 2, st := 1 }).dt, (ticks 1 { CoreState.reset with dt := 2, st := 1 }).st) = (0, 0) := by decide
/-- R234. -/
theorem test_debug_none_at_FFF :
    (CoreState.debug (State.reset.setPc 0xFFF).core).nextBytes = none ∧
      (CoreState.debug (State.reset.setPc 0xFFE).core).nextBytes = some (0, 0) := by decide
/-- The canonical form: a byte that goes back to its reset value is no longer listed. -/
theorem test_write_back_is_unlisted :
    ((Memory.write [] 0x300 5).write 0x300 0) = [] := by decide

/-! ### Witnesses: for each statement with hypotheses, a state and operands that meet them, at the edges of each clause -/

/-- I at an address near the top of memory. -/
def atI (w : Word) : State := State.reset.setI w

theorem witness_ResetLeavesEveryComponentAtItsValue : 0x04F ≤ 0x04F ∧ 0x050 ≤ 0x050 ∧ 0xFFF ≤ 0xFFF ∧
    State.reset.mem.read 0x04F = Config.glyphByte 0x04F ∧ State.reset.mem.read 0x050 = 0 ∧
    State.reset.mem.read 0xFFF = 0 := ⟨by decide, by decide, by decide, rfl, rfl, rfl⟩

theorem witness_LoadPlacesBytesVerbatimAndNothingElse :
    (List.replicate 3584 (0 : Byte)).length ≤ 3584 ∧ 3583 < (List.replicate 3584 (0 : Byte)).length ∧
    ([] : List Byte).length ≤ 3584 ∧ (0x1FF < 0x200) := by
  simp only [List.length_replicate]; decide

theorem witness_MovesWithoutMeaningAreRefusedAndChangeNothing :
    3584 < (List.replicate 3585 (0 : Byte)).length ∧ Transaction.tick ≠ .reset := by
  rw [List.length_replicate]; decide

theorem witness_FetchReadsTwoBytesAtPcAndNeverPast4095 :
    (State.reset.setPc 4094).pc.toNat ≤ 4094 ∧ 4095 ≤ (State.reset.setPc 4095).pc.toNat := by decide

theorem witness_StepRunsTheInstructionTheBytesAtPcDecodeTo :
    let s := (State.reset.setPc 4094).withFetchWord 16 0xDAB5
    s.pc.toNat + 2 ≤ 4096 ∧ decodeBytes [s.mem.read s.pc.toNat, s.mem.read (s.pc.toNat + 1)] =
      .ok (.drw 0xA 0xB 5, []) ∧ (Instr.drw 0xA 0xB 5).wellFormed = true := by decide

theorem witness_UnknownOpcodeExactlyForTheWordsOfNoRow :
    fetch CoreState.reset = .ok 0x0000 ∧ wordWellFormed 0x0000 = false ∧
    step State.reset = .fault (.unknownOpcode 0x0000) := ⟨rfl, by decide, rfl⟩

theorem witness_DecoderAnswersExactlyForTheOpcodeMap :
    OpcodeRow.matches ⟨0xF000, 0x1000⟩ 0x1FFF = true ∧ fetch (State.reset.withFetchWord 16 0x8128).core = .ok 0x8128 ∧
    wordWellFormed 0x8128 = false := ⟨by decide, rfl, by decide⟩

theorem witness_DecodeOfEncodeIsTheInstruction : (Instr.drw 15 15 15).wellFormed = true := by decide

theorem witness_EncodeOfDecodeIsTheWord : decodeWord 0xFF65 = some (.loadRegs 15) := by decide

theorem witness_ReturnPopsThePcOrUnderflows : State.reset.sp.val = 0 ∧
    0 < ({ State.reset with sp := 1 } : State).sp.val ∧ 0 < ({ State.reset with sp := 16 } : State).sp.val := by decide

theorem witness_CallPushesTheReturnAddressOrOverflows : ({ State.reset with sp := 16 } : State).sp.val = 16 ∧
    ({ State.reset with sp := 15 } : State).sp.val < 16 ∧ State.reset.sp.val < 16 := by decide

theorem witness_ReturnUndoesCall :
    ∃ t, exec (.call 0x210) { State.reset with sp := 15 } = .next t := ⟨_, rfl⟩

theorem witness_KeySkipsTestTheKeyOfTheLowNibble :
    (15 : KeyNum).val = (withRegs [(3, 0xFF)]).v[3].toNat % 16 ∧
    (0 : KeyNum).val = (withRegs [(3, 0x10)]).v[3].toNat % 16 := by decide

theorem witness_AddImmediateWrapsAndLeavesVF : (15 : Reg) ≠ 0 := by decide

theorem encode_rnd_hi (x : Reg) (nn : Byte) : fieldC (encode (.rnd x nn)) = 0xC := fieldC_formatI _ _ _

/-- No fetch that answers a word outside category C answers a CXNN word. -/
theorem no_rnd {c : CoreState} {op : Word} (h : fetch c = .ok op) (hc : fieldC op ≠ 0xC) (x : Reg) (nn : Byte) :
    fetch c ≠ .ok (encode (.rnd x nn)) := by
  rw [h]
  rintro ⟨⟩
  exact hc (encode_rnd_hi x nn)

theorem witness_RandomStepMasksTheSuppliedByte :
    fetch (State.reset.withFetchWord 16 0xC30F).core = .ok (encode (.rnd 3 0x0F)) ∧
    (∀ x nn, fetch (State.reset.withFetchWord 16 0x6A02).core ≠ .ok (encode (.rnd x nn))) ∧
    (∀ x nn, fetch CoreState.reset ≠ .ok (encode (.rnd x nn))) ∧
    ∀ x nn, fetch (State.reset.setPc 4095).core ≠ .ok (encode (.rnd x nn)) :=
  ⟨rfl, no_rnd (op := 0x6A02) rfl (by decide), no_rnd (op := 0x0000) rfl (by decide),
   fun _ _ h => nomatch (show Except.error _ = Except.ok _ from h)⟩

theorem witness_OtherInstructionsIgnoreTheRandomByte : ∀ x nn, Instr.ldImm 0 1 ≠ .rnd x nn := (fun _ _ h => nomatch h)

theorem witness_StoreDigitsWritesHundredsTensOnes :
    (atI 0xFFD).i12 ≤ 4093 ∧ 4093 < (atI 0xFFE).i12 ∧ 0xFFC < (atI 0xFFD).i12 := by decide

theorem witness_StoreRegistersWritesV0ToVx : (atI 0xFF0).i12 + (15 : Reg).val ≤ 4095 ∧
    4095 < (atI 0xFF1).i12 + (15 : Reg).val ∧ (atI 0x1FFF).i12 + (0 : Reg).val ≤ 4095 ∧ (15 : Reg) ≤ 15 := by decide

theorem witness_LoadRegistersReadsV0ToVx : (atI 0xFF0).i12 + (15 : Reg).val ≤ 4095 ∧
    4095 < (atI 0xFF1).i12 + (15 : Reg).val ∧ (atI 0x1FFF).i12 + (0 : Reg).val ≤ 4095 ∧ (0 : Reg) < 1 := by decide

theorem witness_LoadRegistersUndoesStoreRegisters : ∃ t, exec (.storeRegs 15) (atI 0xFF0) = .next t := ⟨_, rfl⟩

theorem witness_StoredInstructionIsFetchedNext : (∃ t, exec (.storeRegs 1) (atI 0x202) = .next t) ∧
    1 ≤ (1 : Reg).val ∧ (atI 0x202).i12 = (atI 0x202).pc.toNat + 2 := ⟨⟨_, rfl⟩, by decide, by decide⟩

/-- A pixel at the origin and a sprite of one set pixel: a lit pixel that is set. -/
def lit : State := (poke 0x300 [0x80] (atI 0x300)).setPix (Display.clear.toggle 0 0)

theorem witness_DrawXorsTheSpriteAndReportsCollision : (atI 0xFF1).i12 + 15 ≤ 4096 ∧ 4096 < (atI 0xFF2).i12 + 15 ∧
    (∃ px py, Lights lit 0 1 1 px py ∧ lit.pix.pixel px py = true) ∧
    ¬ ∃ px py, Lights lit 0 1 0 px py ∧ lit.pix.pixel px py = true :=
  ⟨by decide, by decide, ⟨0, 0, ⟨0, 0, by decide, by decide, by decide, by decide, by decide⟩, by decide⟩,
   fun ⟨_, _, ⟨_, _, h, _⟩, _⟩ => nomatch h⟩

theorem witness_DrawingTwiceRestoresTheDisplay :
    (0 : Reg) ≠ VF ∧ (1 : Reg) ≠ VF ∧ ∃ t, exec (.drw 0 1 1) lit = .next t := ⟨by decide, by decide, _, rfl⟩

theorem witness_KeyWaitTakesTheLowestKeyOrChangesNothing :
    ((press 15 State.reset).key[(15 : KeyNum)] = true ∧
      ∀ j : KeyNum, j < 15 → (press 15 State.reset).key[j] = false) ∧
    (press 0 State.reset).key[(0 : KeyNum)] = true ∧ ∀ k : KeyNum, State.reset.key[k] = false := by decide

theorem witness_OnlyTheListedRegistersChange :
    (∃ t, exec (.addReg 1 2) State.reset = .next t) ∧ writesReg (.addReg 1 2) 2 = false := ⟨⟨_, rfl⟩, by decide⟩

theorem witness_FlagWritersLeaveTheFlagOfTheTable :
    (∃ t, exec (.addReg 15 1) State.reset = .next t) ∧ (∃ t, exec (.subReg 15 1) State.reset = .next t) ∧
    (∃ t, exec (.shr 15 1) State.reset = .next t) ∧ (∃ t, exec (.subnReg 15 1) State.reset = .next t) ∧
    (∃ t, exec (.shl 15 1) State.reset = .next t) ∧ ∃ t, exec (.drw 15 1 15) (atI 0xFF1) = .next t :=
  ⟨⟨_, rfl⟩, ⟨_, rfl⟩, ⟨_, rfl⟩, ⟨_, rfl⟩, ⟨_, rfl⟩, _, rfl⟩

theorem witness_OnlyThreeInstructionsWriteI :
    (∃ t, exec (.storeRegs 15) (atI 0x1FF0) = .next t) ∧ writesIndex (.storeRegs 15) = false := ⟨⟨_, rfl⟩, rfl⟩

theorem witness_OnlyCallAndReturnTouchTheStack : (∃ t, exec .cls State.reset = .next t) ∧ Instr.cls ≠ .ret ∧
    (∀ nnn, Instr.cls ≠ .call nnn) ∧ (∃ t, exec (.call 0) { State.reset with sp := 15 } = .next t) ∧
    (0 : Fin 16).val ≠ ({ State.reset with sp := 15 } : State).sp.val :=
  ⟨⟨_, rfl⟩, by decide, (fun _ h => nomatch h), ⟨_, rfl⟩, by decide⟩

theorem witness_OnlyTheirOwnInstructionsWriteTheTimers : (∃ t, exec (.ldVxDt 0) State.reset = .next t) ∧
    (∀ x, Instr.ldVxDt 0 ≠ .ldDtVx x) ∧ ∀ x, Instr.ldVxDt 0 ≠ .ldStVx x :=
  ⟨⟨_, rfl⟩, (fun _ h => nomatch h), (fun _ h => nomatch h)⟩

theorem witness_KeypadIsNeverWrittenDisplayOnlyByTwo : (∃ t, exec (.ldImm 0 1) State.reset = .next t) ∧
    Instr.ldImm 0 1 ≠ .cls ∧ ∀ x y n, Instr.ldImm 0 1 ≠ .drw x y n := ⟨⟨_, rfl⟩, by decide, (fun _ _ _ h => nomatch h)⟩

theorem witness_OnlyThreeInstructionsReadTheKeypad : (∀ x, Instr.ldImm 0 1 ≠ .skp x) ∧
    (∀ x, Instr.ldImm 0 1 ≠ .sknp x) ∧ ∀ x, Instr.ldImm 0 1 ≠ .ldVxK x :=
  ⟨(fun _ h => nomatch h), (fun _ h => nomatch h), (fun _ h => nomatch h)⟩

theorem witness_MemoryChangesOnlyInTheStoredRange : (∃ t, exec (.ldB 0) (atI 0xFFD) = .next t) ∧
    0xFFC < (storedRange (.ldB 0) (atI 0xFFD)).1 ∧
    (storedRange (.ldB 0) (atI 0xFFD)).1 + (storedRange (.ldB 0) (atI 0xFFD)).2 ≤ 0x1000 :=
  ⟨⟨_, rfl⟩, by decide, by decide⟩

theorem witness_NextPcIsThatOfTheTable : ∃ t, exec (.seImm 0 0) (State.reset.setPc 0xFFE) = .next t := ⟨_, rfl⟩

theorem witness_InstructionsCompleteUnlessTheirCheckFails : faultOf (.ldB 0) (atI 0xFFD) = none ∧
    faultOf (.ldB 0) (atI 0xFFE) = some (.addressOutOfRange 0xFFE 3) ∧ faultOf .cls State.reset = none ∧
    faultOf .ret State.reset = some .stackUnderflow := by decide

theorem witness_FaultsLeaveTheStateAndRepeat : stepWith 0 CoreState.reset = .fault (.unknownOpcode 0x0000) := rfl

theorem witness_SelfJumpStepsChangeNothing : AtSelfJump (State.reset.withFetchWord 16 0x1200).core := ⟨0x200, rfl, rfl⟩

theorem witness_Inv_of_a_loaded_program : Inv (State.reset.withFetchWord 16 0x6A02).core :=
  ⟨Memory.writeBytes_wf (a := 0x200) reset_mem_wf (by decide), by decide, by decide⟩

theorem witness_EveryStepKeepsTheInvariant : Inv (State.reset.withFetchWord 16 0x6A02).core ∧
    ∃ t, step (State.reset.withFetchWord 16 0x6A02) = .next t := ⟨witness_Inv_of_a_loaded_program, _, rfl⟩

theorem witness_EveryTransactionKeepsTheInvariant : Inv (State.reset.withFetchWord 16 0x6A02).core ∧
    ∃ t, Session.transact (.running true (State.reset.withFetchWord 16 0x6A02).core) (.step 0) = (.running false t, .ok) :=
  ⟨witness_Inv_of_a_loaded_program, _, rfl⟩

theorem witness_TicksCommuteWithOtherInstructions : (∀ x, Instr.cls ≠ .ldVxDt x) ∧ (∀ x, Instr.cls ≠ .ldDtVx x) ∧
    ∀ x, Instr.cls ≠ .ldStVx x := ⟨(fun _ h => nomatch h), (fun _ h => nomatch h), (fun _ h => nomatch h)⟩

theorem witness_KeySetWritesOneKeyAndNothingElse : (15 : KeyNum) ≠ 0 := by decide

theorem witness_ViewsShowTheStateAndChangeNothing :
    (State.reset.setPc 4094).pc.toNat ≤ 4094 ∧ 4095 ≤ (State.reset.setPc 4095).pc.toNat := by decide

theorem witness_StepTransactionAnswersWhatTheStepAnswers :
    (∃ t, stepWith 0 (State.reset.withFetchWord 16 0x6A02).core = .next t) ∧
    stepWith 0 CoreState.reset = .fault (.unknownOpcode 0x0000) := ⟨⟨_, rfl⟩, rfl⟩

theorem witness_StepTransactionRunsTheFetchedInstruction : (Instr.ldImm 0xA 2).wellFormed = true ∧
    fetch (State.reset.withFetchWord 16 0x6A02).core = .ok (encode (.ldImm 0xA 2)) ∧
    (∀ x nn, Instr.ldImm 0xA 2 ≠ .rnd x nn) ∧
    fetch (State.reset.withFetchWord 16 0xC30F).core = .ok (encode (.rnd 3 0x0F)) ∧
    fetch CoreState.reset = .ok 0x0000 ∧ wordWellFormed 0x0000 = false ∧ 4095 ≤ (State.reset.setPc 4095).pc.toNat :=
  ⟨rfl, rfl, fun _ _ h => (nomatch h), rfl, rfl, by decide, by decide⟩

/-- R36: a supply that names no byte, the boundary of the one with a named byte, gives CORE a free one and nothing else. -/
theorem test_supply_outside_core : (State.reset.drawn).core = State.reset.core ∧
    (State.reset.setRand (some 0xB7)).core = State.reset.core ∧
    (State.reset.setRand (some 0xB7)).supply.byte = 0xB7 := ⟨rfl, rfl, rfl⟩

end Sys2Proof.Tests
end

section
/-! PROOFS. What an instruction that completes can have done to the state, said once (`Effect`, `exec_effect`); the
frame statements and the invariant are read off from it, case by case. -/

namespace Sys2Proof.Machine

open Sys2Proof.Claim

/-! ### The ways an instruction completes -/

/-- From `v` to `v'` every register that R23's table does not list for `i` keeps its value. -/
def KeepsUnlisted (i : Instr) (v v' : Vector Byte 16) : Prop :=
  ∀ r : Reg, writesReg i r = false → v'[r] = v[r]

theorem keepsUnlisted_set {i : Instr} {x : Reg} (v : Vector Byte 16) (b : Byte) (hx : writesReg i x = true) :
    KeepsUnlisted i v (v.set x b) := by
  intro r hr
  have hne : x ≠ r := by rintro rfl; exact absurd hr (by simp [hx])
  exact Vector.getElem_set_ne _ _ (fun h => hne (Fin.ext h))

theorem KeepsUnlisted.trans {i : Instr} {u v w : Vector Byte 16} (huv : KeepsUnlisted i u v)
    (hvw : KeepsUnlisted i v w) : KeepsUnlisted i u w :=
  fun r hr => (hvw r hr).trans (huv r hr)

/-- A result to VX and then a flag to VF (R125). -/
theorem keepsUnlisted_set_flag {i : Instr} {x : Reg} (v : Vector Byte 16) (b f : Byte) (hx : writesReg i x = true)
    (hf : writesReg i VF = true) : KeepsUnlisted i v ((v.set x b).set VF f) :=
  (keepsUnlisted_set v b hx).trans (keepsUnlisted_set _ f hf)

/-- FX65 fills no register above VX (R185). -/
theorem keepsUnlisted_fillRegs (x : Reg) (v : Vector Byte 16) {bs : List Byte} (hlen : bs.length = x.val + 1) :
    KeepsUnlisted (.loadRegs x) v (fillRegs v 0 bs) := by
  intro r hr
  have hlt : x.val < r.val := by simpa [writesReg] using hr
  exact (getElem_fillRegs v 0 bs r.val r.isLt).trans (dif_neg (by omega))

/-- The targets of a Step that changes pc alone: pc itself, past one or two instructions, or a target of 1NNN or BNNN,
which is at most 0x10FE (R127, R28). -/
def State.Reaches (s : State) (w : Word) : Prop :=
  w = s.pc ∨ w = s.pc + 2 ∨ w = s.pc + 4 ∨ w.toNat ≤ 0x10FE

theorem reaches_skip (s : State) (c : Bool) : s.Reaches (if c then s.pc + 4 else s.pc + 2) := by
  cases c
  · exact .inr (.inl rfl)
  · exact .inr (.inr (.inl rfl))

theorem toNat_zextAddr (nnn : Addr12) : (zextAddr nnn).toNat = nnn.toNat :=
  BitVec.toNat_setWidth_of_le (by decide)

theorem reaches_zextAddr (s : State) (nnn : Addr12) : s.Reaches (zextAddr nnn) := by
  refine .inr (.inr (.inr ?_))
  have := nnn.isLt
  rw [toNat_zextAddr]; omega

/-- "The largest value any rule can produce" (R28): 0xFFF + 0xFF. -/
theorem reaches_zextAddr_add (s : State) (nnn : Addr12) (b : Byte) : s.Reaches (zextAddr nnn + zextByte b) := by
  refine .inr (.inr (.inr ?_))
  have hb : (zextByte b).toNat = b.toNat := BitVec.toNat_setWidth_of_le (by decide)
  have := nnn.isLt
  have := b.isLt
  rw [BitVec.toNat_add, toNat_zextAddr, hb]; omega

/-- Every way an instruction completes, by the components it writes. -/
inductive Effect (i : Instr) (s : State) : State → Prop
  /-- pc alone: jumps, skips, and FX0A that waits. -/
  | moved (w : Word) (hw : s.Reaches w) : Effect i s (s.setPc w)
  /-- General registers. -/
  | regs (v : Vector Byte 16) (hv : KeepsUnlisted i s.v v) : Effect i s ((s.setRegs v).setPc (s.pc + 2))
  /-- CXNN also takes a byte from the supply. -/
  | random (x : Reg) (nn : Byte) (v : Vector Byte 16) (hi : i = .rnd x nn) (hv : KeepsUnlisted i s.v v) :
      Effect i s ((s.drawn.setRegs v).setPc (s.pc + 2))
  | index (w : Word) (hi : writesIndex i = true) : Effect i s ((s.setI w).setPc (s.pc + 2))
  | delay (x : Reg) (b : Byte) (hi : i = .ldDtVx x) : Effect i s ((s.setDt b).setPc (s.pc + 2))
  | sound (x : Reg) (b : Byte) (hi : i = .ldStVx x) : Effect i s ((s.setSt b).setPc (s.pc + 2))
  | cleared (hi : i = .cls) : Effect i s ((s.setPix Display.clear).setPc (s.pc + 2))
  /-- DXYN: the display and the flag. -/
  | sprite (x y : Reg) (n : Nat) (p : Display) (v : Vector Byte 16) (hi : i = .drw x y n)
      (hv : KeepsUnlisted i s.v v) : Effect i s (((s.setPix p).setRegs v).setPc (s.pc + 2))
  /-- FX33 and FX55: bytes at I12, inside memory. -/
  | stored (bs : List Byte) (hr : storedRange i s = (s.i12, bs.length)) (hb : s.i12 + bs.length ≤ 4096) :
      Effect i s ((s.setMem (s.mem.writeBytes s.i12 bs)).setPc (s.pc + 2))
  | returned (hi : i = .ret) (h : 0 < s.sp.val) :
      Effect i s { s with sp := ⟨s.sp.val - 1, by omega⟩, pc := s.stack[s.sp.val - 1]'(by omega) }
  | called (nnn : Addr12) (hi : i = .call nnn) (h : s.sp.val < 16) :
      Effect i s { s with stack := s.stack.set s.sp.val (s.pc + 2) h, sp := ⟨s.sp.val + 1, by omega⟩,
                          pc := zextAddr nnn }

/-- The effect of an instruction whose next state is known. -/
theorem Effect.of_exec {i : Instr} {s t u : State} (hu : exec i s = .next u) (e : Effect i s u)
    (h : exec i s = .next t) : Effect i s t :=
  Host.Outcome.next.inj (hu.symm.trans h) ▸ e

/-- A result to VX and no flag. -/
theorem Effect.result {i : Instr} {s : State} {x : Reg} (b : Byte) (hx : writesReg i x = true) :
    Effect i s ((s.setV x b).setPc (s.pc + 2)) :=
  .regs _ (keepsUnlisted_set s.v b hx)

/-- A result to VX and a flag to VF. -/
theorem Effect.resultFlag {i : Instr} {s : State} {x : Reg} (b f : Byte) (hx : writesReg i x = true)
    (hf : writesReg i VF = true) : Effect i s (((s.setV x b).setV VF f).setPc (s.pc + 2)) :=
  .regs _ (keepsUnlisted_set_flag s.v b f hx hf)

/-- The inversion of `exec`: an instruction that completes did one of these things and no more. -/
theorem exec_effect {i : Instr} {s t : State} (h : exec i s = .next t) : Effect i s t := by
  cases i with
  | cls => exact .of_exec (exec_cls s) (.cleared rfl) h
  | ret =>
    obtain ⟨h0, rfl⟩ := exec_ret_eq_next.1 h
    exact .returned rfl h0
  | jp nnn => exact .of_exec (exec_jp s nnn) (.moved _ (reaches_zextAddr s nnn)) h
  | call nnn =>
    obtain ⟨h16, rfl⟩ := exec_call_eq_next.1 h
    exact .called nnn rfl h16
  | seImm x nn => exact .of_exec (exec_seImm s x nn) (.moved _ (reaches_skip s _)) h
  | sneImm x nn => exact .of_exec (exec_sneImm s x nn) (.moved _ (reaches_skip s _)) h
  | seReg x y => exact .of_exec (exec_seReg s x y) (.moved _ (reaches_skip s _)) h
  | ldImm x nn => exact .of_exec (exec_ldImm s x nn) (.result _ (by simp [writesReg])) h
  | addImm x nn => exact .of_exec (exec_addImm s x nn) (.result _ (by simp [writesReg])) h
  | ldReg x y => exact .of_exec (exec_ldReg s x y) (.result _ (by simp [writesReg])) h
  | orReg x y => exact .of_exec (exec_orReg s x y) (.result _ (by simp [writesReg])) h
  | andReg x y => exact .of_exec (exec_andReg s x y) (.result _ (by simp [writesReg])) h
  | xorReg x y => exact .of_exec (exec_xorReg s x y) (.result _ (by simp [writesReg])) h
  | addReg x y => exact .of_exec (exec_addReg s x y) (.resultFlag _ _ (by simp [writesReg]) (by simp [writesReg])) h
  | subReg x y => exact .of_exec (exec_subReg s x y) (.resultFlag _ _ (by simp [writesReg]) (by simp [writesReg])) h
  | shr x y => exact .of_exec (exec_shr s x y) (.resultFlag _ _ (by simp [writesReg]) (by simp [writesReg])) h
  | subnReg x y => exact .of_exec (exec_subnReg s x y) (.resultFlag _ _ (by simp [writesReg]) (by simp [writesReg])) h
  | shl x y => exact .of_exec (exec_shl s x y) (.resultFlag _ _ (by simp [writesReg]) (by simp [writesReg])) h
  | sneReg x y => exact .of_exec (exec_sneReg s x y) (.moved _ (reaches_skip s _)) h
  | ldI nnn => exact .of_exec (exec_ldI s nnn) (.index _ rfl) h
  | jpV0 nnn => exact .of_exec (exec_jpV0 s nnn) (.moved _ (reaches_zextAddr_add s nnn _)) h
  | rnd x nn =>
    exact .of_exec (exec_rnd s x nn) (.random x nn _ rfl (keepsUnlisted_set s.v _ (by simp [writesReg]))) h
  | drw x y n =>
    obtain ⟨_, rfl⟩ := exec_drw_eq_next.1 h
    exact .sprite x y n _ _ rfl (keepsUnlisted_set s.v _ rfl)
  | skp x => exact .of_exec (exec_skp s x) (.moved _ (reaches_skip s _)) h
  | sknp x => exact .of_exec (exec_sknp s x) (.moved _ (reaches_skip s _)) h
  | ldVxDt x => exact .of_exec (exec_ldVxDt s x) (.result _ (by simp [writesReg])) h
  | ldVxK x =>
    cases hk : lowestKey s.key with
    | some k => exact .of_exec (by rw [exec_ldVxK, hk]) (.result (keyByte k) (by simp [writesReg])) h
    | none => exact .of_exec (by rw [exec_ldVxK, hk]) (.moved s.pc (.inl rfl)) h
  | ldDtVx x => exact .of_exec (exec_ldDtVx s x) (.delay x _ rfl) h
  | ldStVx x => exact .of_exec (exec_ldStVx s x) (.sound x _ rfl) h
  | addI x => exact .of_exec (exec_addI s x) (.index _ rfl) h
  | ldF x => exact .of_exec (exec_ldF s x) (.index _ rfl) h
  | ldB x =>
    obtain ⟨hb, rfl⟩ := exec_ldB_eq_next.1 h
    exact .stored _ rfl hb
  | storeRegs x =>
    obtain ⟨hb, rfl⟩ := exec_storeRegs_eq_next.1 h
    exact .stored _ (by rw [length_regsUpTo]; rfl) (by rwa [length_regsUpTo])
  | loadRegs x =>
    obtain ⟨_, rfl⟩ := exec_loadRegs_eq_next.1 h
    exact .regs _ (keepsUnlisted_fillRegs x s.v (Memory.length_readBytes ..))

end Sys2Proof.Machine
end

section
/-! PROOFS. The invariant of Safety.lean: it holds after Reset, and every Step and every transaction keeps it. -/

namespace Sys2Proof.Machine

/-- The invariant speaks of memory, pc and the stack alone. -/
theorem Inv.of_eq {c d : CoreState} (h : Inv c) (hmem : d.mem = c.mem) (hstack : d.stack = c.stack)
    (hpc : d.pc.toNat ≤ 0x10FE) : Inv d where
  mem_wf := hmem ▸ h.mem_wf
  pc_le := hpc
  stack_le := hstack ▸ h.stack_le

theorem inv_reset : Inv CoreState.reset where
  mem_wf := Memory.wf_nil
  pc_le := by decide
  stack_le k := by simp

/-- A Load that is not too long ends inside memory (R256). -/
theorem Inv.load {c : CoreState} {bytes : List Byte} (h : Inv c) (hlen : bytes.length ≤ Config.progMaxLen) :
    Inv (c.load bytes) where
  mem_wf := Memory.writeBytes_wf h.mem_wf (Nat.add_le_add_left hlen Config.progBase)
  pc_le := h.pc_le
  stack_le := h.stack_le

/-- The next instruction's address from a pc at which one was fetched: at most 0x1000, so that no sum wraps (R126). -/
theorem toNat_pc_add_two {w : Word} (hpc : w.toNat + 2 ≤ 4096) : (w + 2).toNat = w.toNat + 2 :=
  BitVec.toNat_add_of_lt (show w.toNat + 2 < 2 ^ 16 by omega)

/-- Where a Step that changes pc alone can go from a pc at which it was fetched. -/
theorem toNat_le_of_reaches {s : State} {w : Word} (hpc : s.pc.toNat + 2 ≤ 4096) (h : s.Reaches w) :
    w.toNat ≤ 0x10FE := by
  rcases h with rfl | rfl | rfl | hw
  · omega
  · rw [toNat_pc_add_two hpc]; omega
  · rw [BitVec.toNat_add_of_lt (show s.pc.toNat + 4 < 2 ^ 16 by omega)]
    show s.pc.toNat + 4 ≤ _
    omega
  · exact hw

theorem Effect.keeps_inv {i : Instr} {s t : State} (e : Effect i s t) (hpc : s.pc.toNat + 2 ≤ 4096)
    (hs : Inv s.core) : Inv t.core := by
  have hnext : (s.pc + 2).toNat ≤ 0x10FE := by rw [toNat_pc_add_two hpc]; omega
  cases e with
  | moved w hw => exact hs.of_eq rfl rfl (toNat_le_of_reaches hpc hw)
  | stored bs _ hb => exact ⟨Memory.writeBytes_wf hs.mem_wf hb, hnext, hs.stack_le⟩
  | returned _ h0 =>
    have htop := hs.stack_le ⟨s.sp.val - 1, by omega⟩
    exact hs.of_eq rfl rfl (htop.trans (by decide))
  | called nnn _ h16 =>
    refine ⟨hs.mem_wf, ?_, fun k => ?_⟩
    · have := nnn.isLt
      show (zextAddr nnn).toNat ≤ _
      rw [toNat_zextAddr]; omega
    · show ((s.stack.set s.sp.val (s.pc + 2) h16)[k.val]).toNat ≤ 0x1000
      rw [Vector.getElem_set]
      split_ifs
      · rw [toNat_pc_add_two hpc]; omega
      · exact hs.stack_le k
  | _ => exact hs.of_eq rfl rfl hnext

/-- Settles O51: a Step that completes was fetched at 4094 or below, and each effect of an instruction keeps the
invariant from there. -/
theorem everyStepKeepsTheInvariant : Obligations.EveryStepKeepsTheInvariant := by
  intro s t hs h
  obtain ⟨op, i, hfetch, -, hexec⟩ := step_eq_next.1 h
  exact (exec_effect hexec).keeps_inv (fetch_eq_ok.1 hfetch).1 hs

/-- The same for the spec's Step(rand) on CORE alone. -/
theorem Inv.stepWith {c d : CoreState} {r : Byte} (hc : Inv c) (h : stepWith r c = .next d) : Inv d := by
  obtain ⟨t, ht, rfl⟩ := stepWith_eq_next.1 h
  exact everyStepKeepsTheInvariant _ _ hc ht

theorem Inv.stepOnce {c d : CoreState} {r : Byte} {b : Bool} {a : Response} (hc : Inv c)
    (h : Session.stepOnce r c = (.running b d, a)) : Inv d := by
  unfold Session.stepOnce at h
  split at h
  · next t ht => cases h; exact hc.stepWith ht
  · cases h; exact hc
  · cases h; exact hc

theorem Inv.loadOnce {c d : CoreState} {bytes : List Byte} {b b' : Bool} {a : Response} (hc : Inv c)
    (h : Session.loadOnce b bytes c = (.running b' d, a)) : Inv d := by
  unfold Session.loadOnce at h
  split_ifs at h with hturn hlong
  · cases h; exact hc
  · cases h; exact hc
  · cases h; exact hc.load (by simpa [imageWellFormed] using hlong)

/-- Settles O52, transaction by transaction. -/
theorem everyTransactionKeepsTheInvariant : Obligations.EveryTransactionKeepsTheInvariant := by
  intro b b' c d tx r hc h
  cases tx with
  | reset => cases h; exact inv_reset
  | load bytes => exact hc.loadOnce h
  | step rand => exact hc.stepOnce h
  | tick => cases h; exact hc.of_eq rfl rfl hc.pc_le
  | keySet k p => cases h; exact hc.of_eq rfl rfl hc.pc_le
  | readFramebuffer => cases h; exact hc
  | readDebug => cases h; exact hc
  | readSound => cases h; exact hc

/-- Settles O50: Reset lists no byte, and its pc and return addresses are 0x200 and 0. -/
theorem invariantHoldsAtReset : Obligations.InvariantHoldsAtReset := inv_reset

end Sys2Proof.Machine
end

section
/-! PROOFS. What an instruction leaves unchanged (the frames of R23, R26, R30, R31, R34 and R35), read off from its
effect; the values of the flag (R24); and the state after Reset. -/

namespace Sys2Proof.Machine

open Sys2Proof.Claim

/-! ### Frames -/

/-- Settles O38: every effect that writes registers keeps the unlisted ones, and no other effect writes any. -/
theorem onlyTheListedRegistersChange : Obligations.OnlyTheListedRegistersChange := by
  intro i s t r h hr
  cases exec_effect h with
  | regs v hv => exact hv r hr
  | random x nn v _ hv => exact hv r hr
  | sprite x y n p v _ hv => exact hv r hr
  | _ => rfl

/-- Settles O40: the one effect that writes I is that of the three. -/
theorem onlyThreeInstructionsWriteI : Obligations.OnlyThreeInstructionsWriteI := by
  intro i s t h hi
  cases exec_effect h with
  | index w hw => rw [hi] at hw; contradiction
  | _ => rfl

/-- Only a call or a return moves SP (R30). -/
theorem exec_sp {i : Instr} {s t : State} (h : exec i s = .next t) (hret : i ≠ .ret)
    (hcall : ∀ nnn, i ≠ .call nnn) : t.sp = s.sp := by
  cases exec_effect h with
  | returned hi _ => exact absurd hi hret
  | called nnn hi _ => exact absurd hi (hcall nnn)
  | _ => rfl

/-- Only a call writes a slot; a return leaves the entry it pops where it was (R29). -/
theorem exec_stack {i : Instr} {s t : State} (h : exec i s = .next t) (hcall : ∀ nnn, i ≠ .call nnn) :
    t.stack = s.stack := by
  cases exec_effect h with
  | called nnn hi _ => exact absurd hi (hcall nnn)
  | _ => rfl

/-- Settles O41: beside the two frames, what a call that completes leaves. -/
theorem onlyCallAndReturnTouchTheStack : Obligations.OnlyCallAndReturnTouchTheStack := by
  intro i s t h
  refine ⟨exec_sp h, exec_stack h, ?_⟩
  rintro nnn rfl
  obtain ⟨h16, rfl⟩ := exec_call_eq_next.1 h
  exact ⟨rfl, fun k hk => Vector.getElem_set_ne h16 k.isLt hk.symm⟩

theorem exec_dt {i : Instr} {s t : State} (h : exec i s = .next t) (hi : ∀ x, i ≠ .ldDtVx x) : t.dt = s.dt := by
  cases exec_effect h with
  | delay x b hx => exact absurd hx (hi x)
  | _ => rfl

theorem exec_st {i : Instr} {s t : State} (h : exec i s = .next t) (hi : ∀ x, i ≠ .ldStVx x) : t.st = s.st := by
  cases exec_effect h with
  | sound x b hx => exact absurd hx (hi x)
  | _ => rfl

/-- Settles O42: each timer is written by one effect, which names its instruction. -/
theorem onlyTheirOwnInstructionsWriteTheTimers : Obligations.OnlyTheirOwnInstructionsWriteTheTimers :=
  fun _ _ _ h => ⟨exec_dt h, exec_st h⟩

theorem exec_key {i : Instr} {s t : State} (h : exec i s = .next t) : t.key = s.key := by
  cases exec_effect h <;> rfl

theorem exec_pix {i : Instr} {s t : State} (h : exec i s = .next t) (hcls : i ≠ .cls)
    (hdrw : ∀ x y n, i ≠ .drw x y n) : t.pix = s.pix := by
  cases exec_effect h with
  | cleared hi => exact absurd hi hcls
  | sprite x y n p v hi _ => exact absurd hi (hdrw x y n)
  | _ => rfl

/-- Settles O43: no effect writes the keypad, two write the display. -/
theorem keypadIsNeverWrittenDisplayOnlyByTwo : Obligations.KeypadIsNeverWrittenDisplayOnlyByTwo :=
  fun _ _ _ h => ⟨exec_key h, exec_pix h⟩

/-! ### The flag (R24) -/

/-- The flag is written last, so VF holds it whatever register the result went to (R125). -/
theorem flag_of_exec {i : Instr} {s t u : State} {f : Byte} {w : Word}
    (hu : exec i s = .next ((u.setV VF f).setPc w)) (h : exec i s = .next t) : t.v[VF] = f := by
  obtain rfl := Host.Outcome.next.inj (hu.symm.trans h)
  exact State.getV_setV_same u VF f

/-- A flag is 1 when its condition holds, and else 0. -/
theorem flagByte_decide (p : Prop) [Decidable p] :
    (flagByte (decide p) = 1 ∧ p) ∨ (flagByte (decide p) = 0 ∧ ¬ p) := by
  by_cases hp : p
  · exact .inl ⟨by simp [flagByte, hp], hp⟩
  · exact .inr ⟨by simp [flagByte, hp], hp⟩

theorem noBorrowFlag_cases (a b : Byte) :
    (noBorrowFlag a b = 1 ∧ a ≥ b) ∨ (noBorrowFlag a b = 0 ∧ a < b) :=
  (flagByte_decide (a.toNat ≥ b.toNat)).imp_right fun h => ⟨h.1, Nat.lt_of_not_le h.2⟩

theorem carryFlag_cases (a b : Byte) :
    (carryFlag a b = 1 ∧ a.toNat + b.toNat > 255) ∨ (carryFlag a b = 0 ∧ a.toNat + b.toNat ≤ 255) :=
  (flagByte_decide (a.toNat + b.toNat > 255)).imp_right fun h => ⟨h.1, Nat.le_of_not_lt h.2⟩

theorem toNat_lsbFlag (b : Byte) : (lsbFlag b).toNat = b.toNat % 2 := by
  rw [lsbFlag_eq, BitVec.toNat_ofNat]; omega

theorem toNat_msbFlag (b : Byte) : (msbFlag b).toNat = b.toNat / 128 := by
  have := b.isLt
  rw [msbFlag_eq, BitVec.toNat_ofNat]; omega

/-- A sprite that collides unsets a set pixel (R193). -/
theorem exists_unset_of_hit {p : Display} {x0 y0 : Byte} {rows : List Byte} (hlen : rows.length ≤ 32)
    (hhit : (drawSprite p x0 y0 rows).hit = true) :
    ∃ px py, p.pixel px py = true ∧ (drawSprite p x0 y0 rows).pix.pixel px py = false := by
  rw [hit_drawSprite p x0 y0 rows hlen, List.any_eq_true] at hhit
  obtain ⟨⟨px, py⟩, hmem, hset⟩ := hhit
  exact ⟨px, py, hset, by rw [pixel_drawSprite p x0 y0 rows hlen]; simp [hmem, hset]⟩

/-- A sprite that does not collide leaves every set pixel set: it lights none of them. -/
theorem set_of_not_hit {p : Display} {x0 y0 : Byte} {rows : List Byte} (hlen : rows.length ≤ 32)
    (hhit : (drawSprite p x0 y0 rows).hit = false) {px : Fin 64} {py : Fin 32} (hset : p.pixel px py = true) :
    (drawSprite p x0 y0 rows).pix.pixel px py = true := by
  rw [hit_drawSprite p x0 y0 rows hlen, List.any_eq_false] at hhit
  have hnot : (px, py) ∉ spriteCells x0 y0 0 rows := fun hmem => hhit _ hmem hset
  rw [pixel_drawSprite p x0 y0 rows hlen]; simp [hnot, hset]

/-- The flag of DXYN (R193). -/
theorem drw_flag {s t : State} {x y : Reg} {n : Nat} (hn : n < 16) (h : exec (.drw x y n) s = .next t) :
    (t.v[VF] = 1 ∧ ∃ px py, s.pix.pixel px py = true ∧ t.pix.pixel px py = false) ∨
      (t.v[VF] = 0 ∧ ∀ px py, s.pix.pixel px py = true → t.pix.pixel px py = true) := by
  have hlen : (s.mem.readBytes s.i12 n).length ≤ 32 := by rw [Memory.length_readBytes]; omega
  obtain ⟨hrange, rfl⟩ := exec_drw_eq_next.1 h
  have hflag := flag_of_exec (exec_drw_eq_next.2 ⟨hrange, rfl⟩) h
  rcases Bool.eq_false_or_eq_true (drawSprite s.pix (s.getV x) (s.getV y) (s.mem.readBytes s.i12 n)).hit with
    hhit | hhit
  · exact .inl ⟨hflag.trans (congrArg flagByte hhit), exists_unset_of_hit hlen hhit⟩
  · exact .inr ⟨hflag.trans (congrArg flagByte hhit), fun _ _ => set_of_not_hit hlen hhit⟩

/-- Settles O39, flag writer by flag writer. -/
theorem flagWritersLeaveTheFlagOfTheTable : Obligations.FlagWritersLeaveTheFlagOfTheTable := by
  intro s t x y
  refine ⟨fun h => ?_, fun h => ?_, fun h => ?_, fun h => ?_, fun h => ?_, fun n hn h => drw_flag hn h⟩
  · rw [flag_of_exec (exec_addReg s x y) h]; exact carryFlag_cases _ _
  · rw [flag_of_exec (exec_subReg s x y) h]; exact noBorrowFlag_cases _ _
  · rw [flag_of_exec (exec_shr s x y) h]; exact toNat_lsbFlag _
  · rw [flag_of_exec (exec_subnReg s x y) h]; exact noBorrowFlag_cases _ _
  · rw [flag_of_exec (exec_shl s x y) h]; exact toNat_msbFlag _

/-! ### Reset (R38) -/

theorem initialByte_glyph {a : Nat} (h : a ≤ 0x04F) : initialByte a = Config.glyphByte a :=
  if_pos (by simp only [Config.glyphBytes]; omega)

theorem initialByte_zero {a : Nat} (h : 0x050 ≤ a) : initialByte a = 0 :=
  if_neg (by simp only [Config.glyphBytes]; omega)

/-- Settles O1: no byte is listed, so that each reads as its initial one. -/
theorem resetLeavesEveryComponentAtItsValue : Obligations.ResetLeavesEveryComponentAtItsValue :=
  ⟨fun r => by simp, rfl, rfl, fun k => by simp, rfl, rfl, rfl, fun _ h => initialByte_glyph h,
    fun _ h _ => initialByte_zero h, fun k => by simp, Display.pixel_clear⟩

end Sys2Proof.Machine
end

section
/-! PROOFS. What an instruction answers does not depend on the timers, the keypad or the supply, except for those that
read or write them (R34, R36, R227, R231): one theorem, `exec_onSide`, from which each independence follows. -/

namespace Sys2Proof.Machine

open Sys2Proof.Claim

/-- A change of the timers, the keypad and the supply: what Tick, KeySet and the host's choice of bytes can do. -/
structure SideChange where
  dt : Byte → Byte := id
  st : Byte → Byte := id
  key : Vector Bool 16 → Vector Bool 16 := id
  supply : RandomSupply → RandomSupply := id

/-- The state with its timers, keypad and supply changed, and everything else as it was. -/
def State.onSide (s : State) (g : SideChange) : State :=
  { s with dt := g.dt s.dt, st := g.st s.st, key := g.key s.key, supply := g.supply s.supply }

/-- The change leaves alone what the instruction reads or writes of those four (R31, R34, R36). -/
structure SideChange.Avoids (g : SideChange) (i : Instr) : Prop where
  dt : g.dt = id ∨ (∀ x, i ≠ .ldVxDt x) ∧ ∀ x, i ≠ .ldDtVx x
  st : g.st = id ∨ ∀ x, i ≠ .ldStVx x
  key : g.key = id ∨ (∀ x, i ≠ .skp x) ∧ (∀ x, i ≠ .sknp x) ∧ ∀ x, i ≠ .ldVxK x
  supply : g.supply = id ∨ ∀ x nn, i ≠ .rnd x nn

theorem mapNext_checked {α : Type} (f : State → State) (e : Except Fault α) (k : α → Result) :
    mapNext f (checked e k) = checked e fun a => mapNext f (k a) := by
  cases e <;> rfl

theorem push_onSide (s : State) (g : SideChange) (w : Word) : (s.onSide g).push w = (s.push w).map (·.onSide g) := by
  by_cases h : s.sp.val < 16
  · rw [push_eq_ok.2 ⟨h, rfl⟩]
    exact push_eq_ok.2 ⟨h, rfl⟩
  · have h16 : s.sp.val = 16 := by omega
    rw [push_eq_error.2 ⟨h16, rfl⟩]
    exact push_eq_error.2 ⟨h16, rfl⟩

theorem pop_onSide (s : State) (g : SideChange) : (s.onSide g).pop = s.pop.map fun p => (p.1, p.2.onSide g) := by
  by_cases h : 0 < s.sp.val
  · rw [pop_eq_ok.2 ⟨h, rfl, rfl⟩]
    exact pop_eq_ok.2 ⟨h, rfl, rfl⟩
  · have h0 : s.sp.val = 0 := by omega
    rw [pop_eq_error.2 ⟨h0, rfl⟩]
    exact pop_eq_error.2 ⟨h0, rfl⟩

theorem checked_map {α β : Type} (f : α → β) (e : Except Fault α) (k : β → Result) :
    checked (e.map f) k = checked e fun a => k (f a) := by
  cases e <;> rfl

theorem storeAtI_onSide (bs : List Byte) (s : State) (g : SideChange) :
    storeAtI bs (s.onSide g) = mapNext (·.onSide g) (storeAtI bs s) := by
  show checked (memWrite s.mem s.i12 bs) _ = mapNext _ (checked _ _)
  rw [mapNext_checked]
  rfl

theorem readAtI_onSide (n : Nat) (s : State) (g : SideChange) {k k' : List Byte → Result}
    (hk : ∀ bs, k' bs = mapNext (·.onSide g) (k bs)) :
    readAtI n (s.onSide g) k' = mapNext (·.onSide g) (readAtI n s k) := by
  show checked (memRead s.mem s.i12 n) k' = mapNext _ (checked _ _)
  rw [mapNext_checked, funext hk]

/-- An instruction that does not use what the change changes does the same before it and after it, with the
same fault. -/
theorem exec_onSide {g : SideChange} {i : Instr} (hg : g.Avoids i) (s : State) :
    exec i (s.onSide g) = mapNext (·.onSide g) (exec i s) := by
  obtain ⟨dt, st, key, supply⟩ := g
  obtain ⟨hdt, hst, hkey, hsupply⟩ := hg
  dsimp only at hdt hst hkey hsupply
  cases i with
  | ret =>
    show checked _ _ = mapNext _ (checked _ _)
    rw [pop_onSide, checked_map, mapNext_checked]
    rfl
  | call nnn =>
    show checked (State.push _ (s.pc + 2)) _ = mapNext _ (checked _ _)
    rw [push_onSide, checked_map, mapNext_checked]
    rfl
  | drw x y n => exact readAtI_onSide n s _ fun _ => rfl
  | ldB x => exact storeAtI_onSide _ s _
  | storeRegs x => exact storeAtI_onSide _ s _
  | loadRegs x => exact readAtI_onSide _ s _ fun _ => rfl
  | rnd x nn =>
    obtain rfl := hsupply.resolve_right fun h => h x nn rfl
    rfl
  | skp x =>
    obtain rfl := hkey.resolve_right fun h => h.1 x rfl
    rfl
  | sknp x =>
    obtain rfl := hkey.resolve_right fun h => h.2.1 x rfl
    rfl
  | ldVxK x =>
    obtain rfl := hkey.resolve_right fun h => h.2.2 x rfl
    have hsame : (s.onSide ⟨dt, st, id, supply⟩).key = s.key := rfl
    rw [exec_ldVxK, exec_ldVxK, hsame]
    cases lowestKey s.key <;> rfl
  | ldVxDt x =>
    obtain rfl := hdt.resolve_right fun h => h.1 x rfl
    rfl
  | ldDtVx x =>
    obtain rfl := hdt.resolve_right fun h => h.2 x rfl
    rfl
  | ldStVx x =>
    obtain rfl := hst.resolve_right fun h => h x rfl
    rfl
  | _ => rfl

/-- Settles O26: another supply is a change that all but CXNN avoid. -/
theorem otherInstructionsIgnoreTheRandomByte : Obligations.OtherInstructionsIgnoreTheRandomByte :=
  fun _ s p hi => exec_onSide (g := { supply := fun _ => p }) ⟨.inl rfl, .inl rfl, .inl rfl, .inr hi⟩ s

/-- Settles O44: KeySet is a change of the keypad alone. -/
theorem onlyThreeInstructionsReadTheKeypad : Obligations.OnlyThreeInstructionsReadTheKeypad :=
  fun _ s k b hskp hsknp hwait =>
    exec_onSide (g := { key := fun key => key.set k b })
      ⟨.inl rfl, .inl rfl, .inr ⟨hskp, hsknp, hwait⟩, .inl rfl⟩ s

/-- Settles O55: a Tick is a change of the timers alone. -/
theorem ticksCommuteWithOtherInstructions : Obligations.TicksCommuteWithOtherInstructions :=
  fun _ s hread hdelay hsound =>
    exec_onSide (g := { dt := countDown, st := countDown })
      ⟨.inr ⟨hread, hdelay⟩, .inr hsound, .inl rfl, .inl rfl⟩ s

/-- Settles O25: the equation of CXNN, with the supply and its byte written out. -/
theorem randomCompletesWithTheDrawOfTheState : Obligations.RandomCompletesWithTheDrawOfTheState := exec_rnd

/-! ### CORE gets one byte from the supply and nothing else -/

theorem mapNext_core_onSupply (p : RandomSupply) (r : Result) :
    mapNext State.core (mapNext (fun t => { t with supply := p }) r) = mapNext State.core r := by
  cases r <;> rfl

/-- What an instruction does in CORE with a supply is what it does when the host names the supply's byte. -/
theorem exec_core_eq_given (i : Instr) (s : State) :
    mapNext State.core (exec i s) = mapNext State.core (exec i (s.core.given s.supply.byte)) := by
  by_cases hi : ∃ x nn, i = .rnd x nn
  · obtain ⟨x, nn, rfl⟩ := hi
    rfl
  · have hother := otherInstructionsIgnoreTheRandomByte i s (s.core.given s.supply.byte).supply
      fun x nn h => hi ⟨x, nn, h⟩
    exact ((congrArg (mapNext State.core) hother).trans (mapNext_core_onSupply _ _)).symm

theorem stepWith_eq_mapNext (r : Byte) (c : CoreState) : stepWith r c = mapNext State.core (step (c.given r)) := by
  unfold stepWith
  cases step (c.given r) <;> rfl

/-- Settles O60: the two Steps fetch and decode the same, and the instruction sees of the supply its byte alone. -/
theorem stepIsStepWithTheByteSupplied : Obligations.StepIsStepWithTheByteSupplied := by
  intro s
  show _ = stepWith s.supply.byte s.core
  rw [stepWith_eq_mapNext, step, step, given_core]
  cases fetch s.core with
  | error f => rfl
  | ok op =>
    simp only [checked_ok]
    cases decodeStage op with
    | error f => rfl
    | ok i => exact exec_core_eq_given i s

end Sys2Proof.Machine
end

section
/-! PROOFS. Memory as an instruction and the next fetch see it (spec/20_memory.md): the fetch at the unmasked pc (R67),
the bytes a store leaves alone (R69), and a stored instruction that is fetched (R75). -/

namespace Sys2Proof.Machine

open Sys2Proof.Claim

/-- Settles O5, from the two answers of the fetch; a Step whose fetch fails is that fault. -/
theorem fetchReadsTwoBytesAtPcAndNeverPast4095 : Obligations.FetchReadsTwoBytesAtPcAndNeverPast4095 := by
  intro s
  constructor
  · intro hpc
    exact ⟨_, fetch_eq_ok.2 ⟨Nat.add_le_add_right hpc 2, rfl⟩, toNat_be16 _ _⟩
  · intro hpc
    have hfetch : fetch s.core = .error (.addressOutOfRange s.pc.toNat 2) :=
      fetch_eq_error.2 ⟨Nat.add_le_add_right hpc 2, rfl⟩
    exact ⟨hfetch, step_eq_fault.2 (.inl hfetch)⟩

/-- Settles O45: the one effect that writes memory writes the bytes of the table's range. -/
theorem memoryChangesOnlyInTheStoredRange : Obligations.MemoryChangesOnlyInTheStoredRange := by
  intro i s t a h ha
  cases exec_effect h with
  | stored bs hr _ =>
    rw [hr] at ha
    exact Memory.read_writeBytes_outside s.mem s.i12 a bs ha
  | _ => rfl

/-- What FX55 stored: byte k from I12 reads as Vk (R184). -/
theorem read_of_exec_storeRegs {s t : State} {x : Reg} (h : exec (.storeRegs x) s = .next t) (k : Reg) (hk : k ≤ x) :
    t.mem.read (s.i12 + k.val) = s.v[k] := by
  obtain ⟨-, rfl⟩ := exec_storeRegs_eq_next.1 h
  have hlen : k.val < (s.regsUpTo x).length := by rw [length_regsUpTo]; exact Nat.lt_succ_of_le hk
  exact (Memory.read_writeBytes_inside s.mem s.i12 k.val _ hlen).trans (getElem_regsUpTo s x k.val hlen)

/-- Settles O32: the store ends inside memory, so the next pc is the number pc + 2, where V0 and V1 were stored. -/
theorem storedInstructionIsFetchedNext : Obligations.StoredInstructionIsFetchedNext := by
  intro s t x h hx hi
  have hv0 := read_of_exec_storeRegs h 0 (Fin.zero_le x)
  have hv1 := read_of_exec_storeRegs h 1 hx
  obtain ⟨hend, rfl⟩ := exec_storeRegs_eq_next.1 h
  have hpc : (s.pc + 2).toNat = s.i12 := by rw [toNat_pc_add_two (by omega), hi]
  refine fetch_eq_ok.2 ⟨?_, ?_⟩
  · show (s.pc + 2).toNat + 2 ≤ 4096
    omega
  · rw [State.setPc_pc, hpc, ← hv0, ← hv1]
    rfl

end Sys2Proof.Machine
end

section
/-! PROOFS. Encoder, decoder and opcode map agree (spec/30_encoding.md): what is encoded decodes to itself, nothing else
decodes, and the words that decode are those of a row; a Step that fetches any other word is UnknownOpcode. -/

namespace Sys2Proof.Machine

open Sys2Proof.Claim

/-! ### The decoder on the encoder's words (R92) -/

/-- The category picks the decoder's arm, and each field is read back from its place in the format; the height of a
sprite fits its four bits. -/
theorem decodeWord_encode {i : Instr} (hi : i.wellFormed = true) : decodeWord (encode i) = some i := by
  cases i with
  | cls | ret => rfl
  | jp | call | ldI | jpV0 | seImm | sneImm | ldImm | addImm | rnd | seReg | sneReg => simp [encode, decodeWord]
  | ldReg | orReg | andReg | xorReg | addReg | subReg | shr | subnReg | shl =>
    simp [encode, decodeWord, decodeAlu]
  | drw x y n =>
    have hn : n < 16 := of_decide_eq_true hi
    simp [encode, decodeWord, Nat.mod_eq_of_lt hn]
  | skp | sknp => simp [encode, decodeWord, decodeKey]
  | ldVxDt | ldVxK | ldDtVx | ldStVx | addI | ldF | ldB | storeRegs | loadRegs =>
    simp [encode, decodeWord, decodeMisc]

theorem decodeBytes_encodeBytes_append {i : Instr} (hi : i.wellFormed = true) (rest : List Byte) :
    decodeBytes (encodeBytes i ++ rest) = .ok (i, rest) := by
  simp [encodeBytes, decodeBytes, decodeWord_encode hi]

/-- Settles O9: on bytes too, as the two bytes put together are the word. -/
theorem decodeOfEncodeIsTheInstruction : Obligations.DecodeOfEncodeIsTheInstruction :=
  fun _ hi => ⟨decodeWord_encode hi, decodeBytes_encodeBytes_append hi⟩

/-! ### The encoder on the words that decode (R97) -/

theorem encode_of_decodeAlu {x y : Reg} {n : BitVec 4} {i : Instr} (h : decodeAlu x y n.toNat = some i) :
    encode i = formatR 0x8 x y n ∧ i.wellFormed = true := by
  unfold decodeAlu at h
  split at h <;> cases h <;>
    exact ⟨congrArg (formatR 0x8 x y) (BitVec.eq_of_toNat_eq (Eq.symm ‹_›)), rfl⟩

theorem encode_of_decodeKey {x : Reg} {nn : Byte} {i : Instr} (h : decodeKey x nn.toNat = some i) :
    encode i = formatI 0xE x nn ∧ i.wellFormed = true := by
  unfold decodeKey at h
  split at h <;> cases h <;>
    exact ⟨congrArg (formatI 0xE x) (BitVec.eq_of_toNat_eq (Eq.symm ‹_›)), rfl⟩

theorem encode_of_decodeMisc {x : Reg} {nn : Byte} {i : Instr} (h : decodeMisc x nn.toNat = some i) :
    encode i = formatI 0xF x nn ∧ i.wellFormed = true := by
  unfold decodeMisc at h
  split at h <;> cases h <;>
    exact ⟨congrArg (formatI 0xF x) (BitVec.eq_of_toNat_eq (Eq.symm ‹_›)), rfl⟩

section
variable {op : Word} {c : BitVec 4} (hc : (fieldC op).toNat = c.toNat)
include hc

theorem formatA_of_fieldC : formatA c (fieldNNN op) = op := BitVec.eq_of_toNat_eq hc ▸ formatA_fields op

theorem formatI_of_fieldC : formatI c (fieldX op) (fieldNN op) = op := BitVec.eq_of_toNat_eq hc ▸ formatI_fields op

theorem formatR_of_fieldC : formatR c (fieldX op) (fieldY op) (fieldN op) = op :=
  BitVec.eq_of_toNat_eq hc ▸ formatR_fields op

end

/-- Arm by arm: the category and the fields that the arm reads or checks are the whole word. -/
theorem encode_of_decodeWord {op : Word} {i : Instr} (h : decodeWord op = some i) :
    encode i = op ∧ i.wellFormed = true := by
  unfold decodeWord at h
  split at h
  case h_1 =>
    split_ifs at h with hcls hret <;> cases h
    · exact ⟨hcls.symm, rfl⟩
    · exact ⟨hret.symm, rfl⟩
  case h_2 hc | h_3 hc | h_11 hc | h_12 hc =>
    cases h
    exact ⟨formatA_of_fieldC hc, rfl⟩
  case h_4 hc | h_5 hc | h_7 hc | h_8 hc | h_13 hc =>
    cases h
    exact ⟨formatI_of_fieldC hc, rfl⟩
  case h_6 hc | h_10 hc =>
    split_ifs at h with hn
    cases h
    refine ⟨?_, rfl⟩
    rw [encode, ← hn]
    exact formatR_of_fieldC hc
  case h_9 hc => exact formatR_of_fieldC (c := 0x8) hc ▸ encode_of_decodeAlu h
  case h_14 hc =>
    cases h
    refine ⟨?_, decide_eq_true (fieldN op).isLt⟩
    rw [encode, BitVec.ofNat_toNat, BitVec.setWidth_eq]
    exact formatR_of_fieldC hc
  case h_15 hc => exact formatI_of_fieldC (c := 0xE) hc ▸ encode_of_decodeKey h
  case h_16 hc => exact formatI_of_fieldC (c := 0xF) hc ▸ encode_of_decodeMisc h
  case h_17 => cases h

/-- Settles O10. -/
theorem encodeOfDecodeIsTheWord : Obligations.EncodeOfDecodeIsTheWord := fun _ _ => encode_of_decodeWord

/-! ### The decoder against the opcode map (R95) -/

theorem isSome_decodeAlu (x y : Reg) (n : BitVec 4) :
    (decodeAlu x y n.toNat).isSome = ([0, 1, 2, 3, 4, 5, 6, 7, 0xE] : List (BitVec 4)).any (n = ·) := by
  unfold decodeAlu
  split <;> simp_all [BitVec.toNat_eq]

theorem isSome_decodeKey (x : Reg) (nn : Byte) :
    (decodeKey x nn.toNat).isSome = ([0x9E, 0xA1] : List Byte).any (nn = ·) := by
  unfold decodeKey
  split <;> simp_all [BitVec.toNat_eq]

theorem isSome_decodeMisc (x : Reg) (nn : Byte) :
    (decodeMisc x nn.toNat).isSome =
      ([0x07, 0x0A, 0x15, 0x18, 0x1E, 0x29, 0x33, 0x55, 0x65] : List Byte).any (nn = ·) := by
  unfold decodeMisc
  split <;> simp_all [BitVec.toNat_eq]

/-- In each category the map, read by fields (`wordWellFormed_eq`), has just the rows that the decoder's arm takes; the
two whole-word rows are words of category 0 alone. -/
theorem isSome_decodeWord (op : Word) : (decodeWord op).isSome = wordWellFormed op := by
  have hcls : (fieldC op).toNat ≠ 0 → op ≠ 0x00E0#16 := by rintro h rfl; exact h rfl
  have hret : (fieldC op).toNat ≠ 0 → op ≠ 0x00EE#16 := by rintro h rfl; exact h rfl
  rw [wordWellFormed_eq]
  unfold decodeWord
  simp only [← BitVec.toNat_inj (x := fieldC op)]
  split
  case h_1 hc => split_ifs <;> simp_all
  case h_6 hc | h_10 hc => simp [hc, hcls, hret, apply_ite]
  case h_9 hc => simp [hc, hcls, hret, isSome_decodeAlu]
  case h_15 hc => simp [hc, hcls, hret, isSome_decodeKey]
  case h_16 hc => simp [hc, hcls, hret, isSome_decodeMisc]
  case h_17 =>
    have := (fieldC op).isLt
    simp only [imp_false] at *
    omega
  case h_2 hc | h_3 hc | h_4 hc | h_5 hc | h_7 hc | h_8 hc | h_11 hc | h_12 hc | h_13 hc | h_14 hc => simp [hc]

theorem decodeWord_eq_none {op : Word} : decodeWord op = none ↔ wordWellFormed op = false := by
  rw [← isSome_decodeWord, Option.isSome_eq_false_iff, Option.isNone_iff_eq_none]

/-- Two rows overlap only if they agree where both masks look. -/
theorem matches_eq_false_of_disagree {a b : OpcodeRow} {op : Word} (hab : a.bits &&& b.mask ≠ b.bits &&& a.mask)
    (ha : a.matches op = true) : b.matches op = false := by
  rw [OpcodeRow.matches, beq_iff_eq] at ha
  rw [OpcodeRow.matches, beq_eq_false_iff_ne]
  intro hb
  exact hab (by rw [← ha, ← hb, BitVec.and_assoc, BitVec.and_assoc, BitVec.and_comm a.mask])

theorem opcodeRows_disagree : opcodeRows.Pairwise fun a b => a.bits &&& b.mask ≠ b.bits &&& a.mask := by decide

/-! ### When an instruction faults, and a Step with it (R211 to R215) -/

/-- One check of R211, R213 or R215, as the table and as the operation write it. -/
theorem check_eq_some {p q : Prop} [Decidable p] {e f : Fault} (h : q ↔ p) :
    q ∧ f = e ↔ (if p then some e else none) = some f := by
  simp [h, eq_comm]

/-- An instruction faults exactly by its one check. -/
theorem exec_eq_fault {i : Instr} {s : State} {f : Fault} : exec i s = .fault f ↔ faultOf i s = some f := by
  cases i with
  | ret => exact exec_ret_eq_fault.trans (check_eq_some Iff.rfl)
  | call nnn => exact exec_call_eq_fault.trans (check_eq_some Iff.rfl)
  | drw x y n => exact exec_drw_eq_fault.trans (check_eq_some Iff.rfl)
  | ldB x => exact exec_ldB_eq_fault.trans (check_eq_some (by omega))
  | storeRegs x => exact exec_storeRegs_eq_fault.trans (check_eq_some (by omega))
  | loadRegs x => exact exec_loadRegs_eq_fault.trans (check_eq_some (by omega))
  | ldVxK x =>
    rw [exec_ldVxK]
    cases lowestKey s.key <;> exact ⟨nofun, nofun⟩
  | _ => exact ⟨nofun, nofun⟩

theorem faultOf_ne_unknownOpcode (i : Instr) (s : State) (op : Word) : faultOf i s ≠ some (.unknownOpcode op) := by
  cases i <;> simp [faultOf]

/-- Settles O7: of a Step's three ways to fault, only the decode stage raises UnknownOpcode. -/
theorem unknownOpcodeExactlyForTheWordsOfNoRow : Obligations.UnknownOpcodeExactlyForTheWordsOfNoRow := by
  intro s op
  rw [step_eq_fault]
  constructor
  · rintro (hfetch | ⟨w, hw, hdecode⟩ | ⟨_, i, -, -, hexec⟩)
    · nomatch (fetch_eq_error.1 hfetch).2
    · obtain ⟨hnone, hop⟩ := decodeStage_eq_error.1 hdecode
      obtain rfl := Fault.unknownOpcode.inj hop
      exact ⟨hw, decodeWord_eq_none.1 hnone⟩
    · exact absurd (exec_eq_fault.1 hexec) (faultOf_ne_unknownOpcode i s op)
  · rintro ⟨hw, hrow⟩
    exact .inr (.inl ⟨op, hw, decodeStage_eq_error.2 ⟨decodeWord_eq_none.2 hrow, rfl⟩⟩)

/-- Settles O8. -/
theorem decoderAnswersExactlyForTheOpcodeMap : Obligations.DecoderAnswersExactlyForTheOpcodeMap :=
  ⟨isSome_decodeWord, rfl, opcodeRows_disagree.imp fun hab _ => matches_eq_false_of_disagree hab,
    fun s op hw hrow => (unknownOpcodeExactlyForTheWordsOfNoRow s op).2 ⟨hw, hrow⟩⟩

/-- Settles O11: the decoder run on each word. -/
theorem wordsOfTheTestVectorsDecode : Obligations.WordsOfTheTestVectorsDecode := by
  unfold Obligations.WordsOfTheTestVectorsDecode
  decide

end Sys2Proof.Machine
end

section
/-! PROOFS. One Step as the host sees it (spec/40_step_cycle.md): it is the fetched instruction at that state (R120), Ok
or a fault and nothing else (R123, R128), and pc goes where R127's table says. -/

namespace Sys2Proof.Machine

open Sys2Proof.Claim

/-! ### A Step is the fetched instruction (R120) -/

/-- When the fetch answers a word that decodes, the Step is that instruction at that very state. -/
theorem step_of_fetch {s : State} {op : Word} {i : Instr} (hf : fetch s.core = .ok op) (hd : decodeWord op = some i) :
    step s = exec i s := by
  rw [step, hf, checked_ok, decodeStage_eq_ok.2 hd, checked_ok]

/-- The same by the encoding: the fetched word is that of a well-formed instruction. -/
theorem step_of_fetch_encode {s : State} {i : Instr} (hi : i.wellFormed = true) (hf : fetch s.core = .ok (encode i)) :
    step s = exec i s :=
  step_of_fetch hf (decodeWord_encode hi)

/-- Two bytes that decode to an instruction and nothing left over are a word that decodes to it (R64). -/
theorem decodeWord_be16_of_decodeBytes {b0 b1 : Byte} {i : Instr} (h : decodeBytes [b0, b1] = .ok (i, [])) :
    decodeWord (be16 b0 b1) = some i := by
  rw [decodeBytes] at h
  split at h
  · next j hj => cases h; exact hj
  · cases h

/-- Settles O6: the bytes at pc are the word that the fetch answers. -/
theorem stepRunsTheInstructionTheBytesAtPcDecodeTo : Obligations.StepRunsTheInstructionTheBytesAtPcDecodeTo :=
  fun _ _ hpc hbytes _ => step_of_fetch (fetch_eq_ok.2 ⟨hpc, rfl⟩) (decodeWord_be16_of_decodeBytes hbytes)

/-- Settles O49: the Step is the jump, which writes to pc the address it had. -/
theorem selfJumpStepsChangeNothing : Obligations.SelfJumpStepsChangeNothing := by
  rintro s ⟨nnn, hfetch, hpc⟩
  rw [step_of_fetch_encode (i := .jp nnn) rfl hfetch, exec_jp, hpc, setPc_self]

/-! ### Ok or a fault, never a refusal (R123, R128) -/

theorem checked_ne_refused {α : Type} {e : Except Fault α} {k : α → Result} {r : Refusal}
    (hk : ∀ a, k a ≠ .refused r) : checked e k ≠ .refused r := by
  intro h
  obtain ⟨a, -, ha⟩ := checked_eq_refused.1 h
  exact hk a ha

/-- All 34 instructions have their meaning: those with a check end in its fault or go on to complete,
and the others complete. -/
theorem exec_ne_refused (i : Instr) (s : State) (r : Refusal) : exec i s ≠ .refused r := by
  cases i with
  | ret | call | drw | ldB | storeRegs | loadRegs => exact checked_ne_refused fun _ => nofun
  | ldVxK x => rw [exec_ldVxK]; cases lowestKey s.key <;> nofun
  | _ => nofun

theorem step_ne_refused (s : State) (r : Refusal) : step s ≠ .refused r :=
  checked_ne_refused fun _ => checked_ne_refused fun i => exec_ne_refused i s r

/-- Settles O12: of the three outcomes, the third cannot be. -/
theorem everyStepIsOkOrAFault : Obligations.EveryStepIsOkOrAFault := by
  intro s
  cases h : step s with
  | next t => exact .inl ⟨t, rfl⟩
  | fault f => exact .inr ⟨f, rfl⟩
  | refused r => exact absurd h (step_ne_refused s r)

/-! ### The Step transaction (R120, R128) -/

theorem stepOnce_of_next {c d : CoreState} {r : Byte} (h : stepWith r c = .next d) :
    Session.stepOnce r c = (.running false d, .ok) := by
  rw [Session.stepOnce, h]

theorem stepOnce_of_fault {c : CoreState} {r : Byte} {f : Fault} (h : stepWith r c = .fault f) :
    Session.stepOnce r c = (.running false c, .fault f) := by
  rw [Session.stepOnce, h]

/-- Step(rand) is Ok or a fault as the Step with that byte is. -/
theorem stepWith_ok_or_fault (r : Byte) (c : CoreState) :
    (∃ t, stepWith r c = .next t) ∨ ∃ f, stepWith r c = .fault f :=
  (everyStepIsOkOrAFault (c.given r)).imp (fun ⟨t, h⟩ => ⟨t.core, stepWith_eq_next.2 ⟨t, h, rfl⟩⟩)
    fun ⟨f, h⟩ => ⟨f, stepWith_eq_fault.2 h⟩

/-- Settles O58: the transaction is Step(rand) with the session around its answer. -/
theorem stepTransactionAnswersWhatTheStepAnswers : Obligations.StepTransactionAnswersWhatTheStepAnswers :=
  fun _ c rand => ⟨fun _ => stepOnce_of_next, fun _ => stepOnce_of_fault, stepWith_ok_or_fault rand c⟩

/-- Another supply changes nothing in CORE for an instruction other than CXNN (R36, R173). -/
theorem exec_core_congr_supply {i : Instr} (hi : ∀ x nn, i ≠ .rnd x nn) (c : CoreState) (p q : RandomSupply) :
    mapNext State.core (exec i { core := c, supply := p }) =
      mapNext State.core (exec i { core := c, supply := q }) := by
  have hother := otherInstructionsIgnoreTheRandomByte i { core := c, supply := q } p hi
  exact (congrArg (mapNext State.core) hother).trans (mapNext_core_onSupply p _)

/-- Settles O59: the Step is the fetched instruction with the byte named by the supply, which CXNN alone reads; a word
of no row and a pc past the last instruction fault before any instruction. -/
theorem stepTransactionRunsTheFetchedInstruction : Obligations.StepTransactionRunsTheFetchedInstruction := by
  intro c rand
  refine ⟨?_, ?_, ?_, ?_⟩
  · intro i p hwf hfetch hi
    rw [stepWith_eq_mapNext, step_of_fetch_encode hwf hfetch]
    exact exec_core_congr_supply hi c _ p
  · intro x nn hfetch
    rw [stepWith_eq_mapNext, step_of_fetch_encode (i := .rnd x nn) rfl hfetch, exec_rnd, given_byte]
    rfl
  · intro op hfetch hrow
    exact stepWith_eq_fault.2 ((unknownOpcodeExactlyForTheWordsOfNoRow _ op).2 ⟨hfetch, hrow⟩)
  · intro hpc
    exact stepWith_eq_fault.2 ((fetchReadsTwoBytesAtPcAndNeverPast4095 (c.given rand)).2 hpc).2

/-! ### Where pc goes (R127) -/

/-- The table's pc of an instruction whose next state is known. -/
theorem pc_eq_nextPc_of_exec {i : Instr} {s t u : State} (hu : exec i s = .next u) (hpc : u.pc = nextPc i s)
    (h : exec i s = .next t) : t.pc = nextPc i s :=
  Host.Outcome.next.inj (hu.symm.trans h) ▸ hpc

theorem skipPc_eq_ite (c : Bool) (s : State) : skipPc c s = if c then s.pc + 4 else s.pc + 2 := by
  cases c <;> rfl

/-- The key of R154's low nibble is the one the skip tests. -/
theorem keyDown_eq (s : State) (x : Reg) : keyDown s x = s.key[keyOf (s.getV x)] := by
  simp only [keyDown, Fin.getElem_fin, val_keyOf]
  rfl

/-- NNN + V0 as a number is the model's 16-bit sum (R143). -/
theorem zextAddr_add_zextByte (nnn : Addr12) (b : Byte) :
    zextAddr nnn + zextByte b = BitVec.ofNat 16 (nnn.toNat + b.toNat) := by
  rw [BitVec.ofNat_add, BitVec.ofNat_toNat, BitVec.ofNat_toNat, zextAddr, zextByte]

/-- Settles O46: the skips by their conditions, FX0A by whether a key is down; all but the transfers of control go on
to pc + 2. -/
theorem nextPcIsThatOfTheTable : Obligations.NextPcIsThatOfTheTable := by
  intro i s t h
  cases i with
  | ret => obtain ⟨_, rfl⟩ := exec_ret_eq_next.1 h; rfl
  | call nnn => obtain ⟨_, rfl⟩ := exec_call_eq_next.1 h; exact zextAddr_eq nnn
  | jp nnn => exact pc_eq_nextPc_of_exec (exec_jp s nnn) (zextAddr_eq nnn) h
  | jpV0 nnn => exact pc_eq_nextPc_of_exec (exec_jpV0 s nnn) (zextAddr_add_zextByte nnn _) h
  | seImm x nn => exact pc_eq_nextPc_of_exec (exec_seImm s x nn) (skipPc_eq_ite _ s).symm h
  | sneImm x nn =>
    exact pc_eq_nextPc_of_exec (exec_sneImm s x nn) (by simp [nextPc, skipPc_eq_ite, State.getV]) h
  | seReg x y => exact pc_eq_nextPc_of_exec (exec_seReg s x y) (skipPc_eq_ite _ s).symm h
  | sneReg x y =>
    exact pc_eq_nextPc_of_exec (exec_sneReg s x y) (by simp [nextPc, skipPc_eq_ite, State.getV]) h
  | skp x => exact pc_eq_nextPc_of_exec (exec_skp s x) (by rw [nextPc, keyDown_eq, skipPc_eq_ite]; rfl) h
  | sknp x => exact pc_eq_nextPc_of_exec (exec_sknp s x) (by rw [nextPc, keyDown_eq, skipPc_eq_ite]; rfl) h
  | ldVxK x =>
    cases hk : lowestKey s.key with
    | some k =>
      have hdown : ∃ k : KeyNum, s.key[k] = true := ⟨k, (lowestKey_eq_some.1 hk).1⟩
      exact pc_eq_nextPc_of_exec (by rw [exec_ldVxK, hk]) (if_pos hdown).symm h
    | none =>
      have hup : ¬ ∃ k : KeyNum, s.key[k] = true := by simpa using lowestKey_eq_none.1 hk
      have hwait : exec (.ldVxK x) s = .next (s.setPc s.pc) := by rw [exec_ldVxK, hk]
      exact pc_eq_nextPc_of_exec hwait (if_neg hup).symm h
  | drw x y n => obtain ⟨_, rfl⟩ := exec_drw_eq_next.1 h; rfl
  | ldB x => obtain ⟨_, rfl⟩ := exec_ldB_eq_next.1 h; rfl
  | storeRegs x => obtain ⟨_, rfl⟩ := exec_storeRegs_eq_next.1 h; rfl
  | loadRegs x => obtain ⟨_, rfl⟩ := exec_loadRegs_eq_next.1 h; rfl
  | _ => exact pc_eq_nextPc_of_exec rfl rfl h

end Sys2Proof.Machine
end

section
/-! PROOFS. Control transfer (spec/41_flow.md): a return pops pc, a call pushes the address after it, and a return right
after a call resumes there; the jumps move pc alone. -/

namespace Sys2Proof.Machine

/-- NNN + V0 is at most 0x10FE, so that the 16-bit sum never wraps (R143). -/
theorem toNat_zextAddr_add_zextByte (nnn : Addr12) (b : Byte) :
    (zextAddr nnn + zextByte b).toNat = nnn.toNat + b.toNat := by
  have hsum : nnn.toNat + b.toNat < 2 ^ 16 := by have := nnn.isLt; have := b.isLt; omega
  rw [zextAddr_add_zextByte, BitVec.toNat_ofNat, Nat.mod_eq_of_lt hsum]

/-- Settles O16: the call leaves SP one higher, so the return pops; the slot it pops is the one the call wrote. -/
theorem returnUndoesCall : Obligations.ReturnUndoesCall := by
  intro s t nnn w hcall
  obtain ⟨h16, rfl⟩ := exec_call_eq_next.1 hcall
  exact exec_ret_eq_next.2 ⟨Nat.succ_pos _, by simp only [Nat.add_sub_cancel, Vector.getElem_set_self]⟩

/-- Settles O13. -/
theorem returnPopsThePcOrUnderflows : Obligations.ReturnPopsThePcOrUnderflows :=
  fun _ => ⟨fun h0 => exec_ret_eq_fault.2 ⟨h0, rfl⟩, fun h => exec_ret_eq_next.2 ⟨h, rfl⟩⟩

/-- Settles O14. -/
theorem callPushesTheReturnAddressOrOverflows : Obligations.CallPushesTheReturnAddressOrOverflows :=
  fun _ nnn => ⟨fun h16 => exec_call_eq_fault.2 ⟨h16, rfl⟩,
    fun h => exec_call_eq_next.2 ⟨h, by rw [zextAddr_eq nnn]⟩⟩

/-- Settles O15. -/
theorem jumpsSetPcAndNothingElse : Obligations.JumpsSetPcAndNothingElse := by
  intro s nnn
  refine ⟨?_, _, exec_jpV0 s nnn, toNat_zextAddr_add_zextByte nnn _⟩
  rw [exec_jp, zextAddr_eq]
  rfl

end Sys2Proof.Machine
end

section
/-! PROOFS. The conditional skips (spec/42_skip.md): the comparison a skip makes as a Boolean is the rule's condition,
and the key that EX9E and EXA1 test is the one the low nibble of VX names. -/

namespace Sys2Proof.Machine

/-- An instruction that skips on the Boolean of a condition moves pc alone, by that condition (R156). -/
theorem exec_skip_of_iff {i : Instr} {s : State} {b : Bool} {p : Prop} [Decidable p]
    (hexec : exec i s = .next (s.setPc (if b then s.pc + 4 else s.pc + 2))) (hcond : b = true ↔ p) :
    exec i s = .next { s with pc := if p then s.pc + 4 else s.pc + 2 } := by
  rw [hexec, if_congr hcond rfl rfl]
  rfl

/-- The key of the low nibble is the only one with that number (R154). -/
theorem eq_keyOf {k : KeyNum} {b : Byte} (hk : k.val = b.toNat % 16) : k = keyOf b :=
  Fin.ext (hk.trans (val_keyOf b).symm)

/-- Settles O18: the key so numbered is the one the skip tests; EXA1 tests the negation. -/
theorem keySkipsTestTheKeyOfTheLowNibble : Obligations.KeySkipsTestTheKeyOfTheLowNibble := by
  intro s x k hk
  obtain rfl : k = keyOf (s.getV x) := eq_keyOf hk
  exact ⟨exec_skip_of_iff (exec_skp s x) Iff.rfl, exec_skip_of_iff (exec_sknp s x) (by rw [Bool.not_eq_true'])⟩

/-- Settles O17: the Boolean comparisons of two bytes are equality and its negation. -/
theorem registerSkipsTestAndMoveOnlyPc : Obligations.RegisterSkipsTestAndMoveOnlyPc :=
  fun s x y nn => ⟨exec_skip_of_iff (exec_seImm s x nn) beq_iff_eq, exec_skip_of_iff (exec_sneImm s x nn) bne_iff_ne,
    exec_skip_of_iff (exec_seReg s x y) beq_iff_eq, exec_skip_of_iff (exec_sneReg s x y) bne_iff_ne⟩

end Sys2Proof.Machine
end

section
/-! PROOFS. Register loads and the ALU (spec/43_alu.md): a result to VX alone, or a result to VX and then a flag to VF
(R125), with the result and the flag as the rules' natural numbers narrowed to a byte (R171); and the byte of CXNN. -/

namespace Sys2Proof.Machine

open Sys2Proof.Claim

/-! ### A flag writer (R125) -/

/-- An instruction with a result to VX and a flag to VF changes no component but the registers and pc, and leaves the
registers of R125 for whatever numbers narrow to that result and that flag. -/
theorem flagResult_of_exec {i : Instr} {s : State} {x : Reg} {b f : Byte} {res flag : Nat}
    (hexec : exec i s = .next (((s.setV x b).setV VF f).setPc (s.pc + 2)))
    (hres : b = BitVec.ofNat 8 res) (hflag : f = BitVec.ofNat 8 flag) :
    ∃ v' : Vector Byte 16, exec i s = .next { s with v := v', pc := s.pc + 2 } ∧ FlagResult s x res flag v' := by
  subst hres hflag
  exact ⟨_, hexec, fun r => State.getV_setV_flag s x r _ _⟩

/-- Narrowing to a byte is itself the reduction modulo 256 (R171). -/
theorem ofNat_eq_ofNat_mod (n : Nat) : BitVec.ofNat 8 n = BitVec.ofNat 8 (n % 256) :=
  BitVec.eq_of_toNat_eq (Nat.mod_mod n 256).symm

theorem flagByte_decide_eq (p : Prop) [Decidable p] : flagByte (decide p) = BitVec.ofNat 8 (if p then 1 else 0) := by
  by_cases hp : p <;> simp [flagByte, hp]

/-- Settles O21: the sum and the carry are those of the operands before any write. -/
theorem addRegistersGivesSumAndCarry : Obligations.AddRegistersGivesSumAndCarry :=
  fun s x y => flagResult_of_exec (exec_addReg s x y) (ofNat_eq_ofNat_mod _) (flagByte_decide_eq _)

/-- Settles O22: 8XY7 is 8XY5 with the operands exchanged. -/
theorem subtractionsGiveDifferenceAndNoBorrow : Obligations.SubtractionsGiveDifferenceAndNoBorrow :=
  fun s x y =>
    ⟨flagResult_of_exec (exec_subReg s x y) (ofNat_eq_ofNat_mod _) (flagByte_decide_eq _),
      flagResult_of_exec (exec_subnReg s x y) (ofNat_eq_ofNat_mod _) (flagByte_decide_eq _)⟩

/-- Settles O23: the bit shifted out is the remainder of the halving, and the quotient by 128 the doubling drops. -/
theorem shiftsGiveResultAndBitShiftedOut : Obligations.ShiftsGiveResultAndBitShiftedOut :=
  fun s x y =>
    ⟨flagResult_of_exec (exec_shr s x y) rfl (lsbFlag_eq _),
      flagResult_of_exec (exec_shl s x y) (ofNat_eq_ofNat_mod _) (msbFlag_eq _)⟩

/-! ### CXNN and its byte (R173) -/

/-- A Step(rand) whose fetch answers no instruction faults whatever its byte is (R218). -/
theorem stepWith_congr_rand_of_fault {c : CoreState} {f : Fault}
    (hf : fetch c = .error f ∨ ∃ op, fetch c = .ok op ∧ decodeStage op = .error f) (r r' : Byte) :
    stepWith r c = stepWith r' c := by
  have hfault (q : Byte) : stepWith q c = .fault f :=
    stepWith_eq_fault.2 (step_eq_fault.2 (or_assoc.1 (.inl hf)))
  rw [hfault r, hfault r']

/-- Step(rand) ignores its byte when the fetch answers no CXNN word: at a faulting fetch and at a word of no row it
faults before the byte matters, and any other instruction does not read it. -/
theorem stepWith_congr_rand {c : CoreState} (hc : ∀ x nn, fetch c ≠ .ok (encode (.rnd x nn))) (r r' : Byte) :
    stepWith r c = stepWith r' c := by
  cases hf : fetch c with
  | error f => exact stepWith_congr_rand_of_fault (.inl hf) r r'
  | ok op =>
    cases hd : decodeWord op with
    | none => exact stepWith_congr_rand_of_fault (.inr ⟨op, hf, decodeStage_eq_error.2 ⟨hd, rfl⟩⟩) r r'
    | some i =>
      have hi : ∀ x nn, i ≠ .rnd x nn := by
        rintro x nn rfl
        exact hc x nn (hf.trans (congrArg Except.ok (encode_of_decodeWord hd).1.symm))
      rw [stepWith_eq_mapNext, stepWith_eq_mapNext, step_of_fetch hf hd, step_of_fetch hf hd]
      exact exec_core_congr_supply hi c _ _

/-- Settles O24: a Step of CXNN is the second clause of O59. -/
theorem randomStepMasksTheSuppliedByte : Obligations.RandomStepMasksTheSuppliedByte := by
  intro c rand
  obtain ⟨-, hrnd, -⟩ := stepTransactionRunsTheFetchedInstruction c rand
  exact ⟨hrnd, fun hc => stepWith_congr_rand hc rand⟩

/-! ### A result to VX alone -/

/-- Settles O19: each is its instruction's equation, with the one register written out. -/
theorem loadsAndLogicWriteVxAndNoFlag : Obligations.LoadsAndLogicWriteVxAndNoFlag :=
  fun s x y nn => ⟨exec_ldImm s x nn, exec_ldReg s x y, exec_orReg s x y, exec_andReg s x y, exec_xorReg s x y⟩

/-- Settles O20: the one register written holds the narrowed sum, and VF is like any other (R161). -/
theorem addImmediateWrapsAndLeavesVF : Obligations.AddImmediateWrapsAndLeavesVF := by
  intro s x nn
  refine ⟨_, exec_addImm s x nn, ?_, fun r hr => State.getV_setV_ne s _ hr.symm⟩
  have hvx := State.getV_setV_same s x (BitVec.ofNat 8 ((s.getV x).toNat + nn.toNat))
  exact (congrArg BitVec.toNat hvx).trans (BitVec.toNat_ofNat _ 8)

end Sys2Proof.Machine
end

section
/-! PROOFS. The index register, loads and stores (spec/44_index_mem.md): I as a number, the digits and registers a store
leaves in memory, the registers a load fills, and the round trip of the two (R186). -/

namespace Sys2Proof.Machine

/-! ### Stores at I12 (R183, R184) -/

/-- The digits of FX33 as numbers: a digit is below 256, so that narrowing it to a byte loses nothing (R183). -/
theorem toNat_getElem_bcdDigits (b : Byte) :
    (bcdDigits b)[0].toNat = b.toNat / 100 ∧ (bcdDigits b)[1].toNat = b.toNat / 10 % 10 ∧
      (bcdDigits b)[2].toNat = b.toNat % 10 := by
  have hb := b.isLt
  refine ⟨?_, ?_, ?_⟩ <;> exact (BitVec.toNat_ofNat _ 8).trans (Nat.mod_eq_of_lt (by omega))

/-- Settles O28: the three bytes of the store, each at its offset from I12. -/
theorem storeDigitsWritesHundredsTensOnes : Obligations.StoreDigitsWritesHundredsTensOnes := by
  intro s x
  obtain ⟨hundreds, tens, ones⟩ := toNat_getElem_bcdDigits (s.getV x)
  have hread (k : Nat) (hk : k < 3) := Memory.read_writeBytes_inside s.mem s.i12 k (bcdDigits (s.getV x)) hk
  refine ⟨fun hi => ⟨_, exec_ldB_eq_next.2 ⟨Nat.add_le_add_right hi 3, rfl⟩, ?_, ?_, ?_, ?_⟩,
    fun hi => exec_ldB_eq_fault.2 ⟨Nat.add_lt_add_right hi 3, rfl⟩⟩
  · exact (congrArg BitVec.toNat (hread 0 (by decide))).trans hundreds
  · exact (congrArg BitVec.toNat (hread 1 (by decide))).trans tens
  · exact (congrArg BitVec.toNat (hread 2 (by decide))).trans ones
  · exact fun a ha => Memory.read_writeBytes_outside s.mem s.i12 a _ ha

/-- Settles O29: what was stored is read at its own offset, and the frame is that of a store of X + 1 bytes. -/
theorem storeRegistersWritesV0ToVx : Obligations.StoreRegistersWritesV0ToVx := by
  intro s x
  refine ⟨fun hi => ?_, fun hi => exec_storeRegs_eq_fault.2 ⟨Nat.succ_lt_succ hi, rfl⟩⟩
  have hexec := exec_storeRegs_eq_next.2 ⟨Nat.succ_le_succ hi, rfl⟩
  have hstored := read_of_exec_storeRegs hexec
  refine ⟨_, hexec, hstored, fun a ha => ?_⟩
  exact Memory.read_writeBytes_outside s.mem s.i12 a _ (by rwa [length_regsUpTo])

/-! ### The load at I12 (R185) -/

/-- Settles O30: a register in the range gets the byte at its own offset, one above it is not filled. -/
theorem loadRegistersReadsV0ToVx : Obligations.LoadRegistersReadsV0ToVx := by
  intro s x
  have hfill (k : Reg) := getElem_fillRegs s.v 0 (s.mem.readBytes s.i12 (x.val + 1)) k.val k.isLt
  simp only [Nat.zero_le, Nat.sub_zero, true_and, Memory.length_readBytes, Nat.lt_succ_iff,
    Memory.getElem_readBytes] at hfill
  refine ⟨fun hi => ⟨_, exec_loadRegs_eq_next.2 ⟨Nat.succ_le_succ hi, rfl⟩, fun k hk => ?_, fun k hk => ?_⟩,
    fun hi => exec_loadRegs_eq_fault.2 ⟨Nat.succ_lt_succ hi, rfl⟩⟩
  · exact (hfill k).trans (dif_pos hk)
  · exact (hfill k).trans (dif_neg (Nat.not_le_of_lt hk))

/-- Settles O31: FX55 leaves I, so that FX65 passes the same check (R186) and reads at the offsets FX55 stored to. -/
theorem loadRegistersUndoesStoreRegisters : Obligations.LoadRegistersUndoesStoreRegisters := by
  intro s t x v' hstore
  obtain ⟨hend, ht⟩ := exec_storeRegs_eq_next.1 hstore
  have hi : (t.setRegs v').i12 = s.i12 := by rw [ht]; rfl
  obtain ⟨hload, -⟩ := loadRegistersReadsV0ToVx (t.setRegs v') x
  rw [hi] at hload
  obtain ⟨_, hexec, hloaded, habove⟩ := hload (Nat.le_of_succ_le_succ hend)
  exact ⟨_, hexec, fun k hk => (hloaded k hk).trans (read_of_exec_storeRegs hstore k hk), habove⟩

/-! ### Setting I (R180 to R182) -/

/-- The 16-bit sum of FX1E is the sum of the numbers modulo 65536 (R181). -/
theorem add_zextByte (w : Word) (b : Byte) : w + zextByte b = BitVec.ofNat 16 ((w.toNat + b.toNat) % 65536) := by
  have hb : (zextByte b).toNat = b.toNat := BitVec.toNat_setWidth_of_le (by decide)
  exact BitVec.eq_of_toNat_eq (by rw [BitVec.toNat_add, hb, BitVec.toNat_ofNat, Nat.mod_mod])

/-- VX * 5 is at most 1275, so that the 16-bit product never wraps (R182). -/
theorem toNat_glyphAddress (b : Byte) : (glyphAddress b).toNat = b.toNat * 5 := by
  have hb := b.isLt
  exact (BitVec.toNat_ofNat _ 16).trans (Nat.mod_eq_of_lt (by omega))

/-- Settles O27: each is its instruction's equation, with the value of I as a number. -/
theorem indexInstructionsSetI : Obligations.IndexInstructionsSetI := by
  intro s nnn x
  refine ⟨?_, ?_, _, exec_ldF s x, toNat_glyphAddress _⟩
  · rw [exec_ldI, zextAddr_eq]
    rfl
  · rw [exec_addI, add_zextByte]
    rfl

end Sys2Proof.Machine
end

section
/-! PROOFS. The display (spec/45_display.md): the cells the drawing loop touches are those the sprite at I12 lights, so
DXYN XORs them into the display and collides at a lit pixel that was set; XORing the same cells again undoes it. -/

namespace Sys2Proof.Machine

open Sys2Proof.Claim

/-! ### Clearing (R190) -/

/-- Settles O33: the instruction's equation, with the cleared display as the new one. -/
theorem clearUnsetsEveryPixelAndKeepsVF : Obligations.ClearUnsetsEveryPixelAndKeepsVF :=
  fun s => ⟨Display.clear, exec_cls s, Display.pixel_clear⟩

/-! ### One sprite (R191, R192) -/

theorem column_eq_iff {x0 : Byte} {c : Nat} {px : Fin 64} : column x0 c = px ↔ px.val = (x0.toNat + c) % 64 := by
  rw [eq_comm, Fin.ext_iff]
  rfl

theorem row_eq_iff {y0 : Byte} {r : Nat} {py : Fin 32} : row y0 r = py ↔ py.val = (y0.toNat + r) % 32 := by
  rw [eq_comm, Fin.ext_iff]
  rfl

/-- The cells the model draws for DXYN are those the sprite lights. -/
theorem mem_spriteCells_iff_lights (s : State) (x y : Reg) (n : Nat) (px : Fin 64) (py : Fin 32) :
    (px, py) ∈ spriteCells (s.getV x) (s.getV y) 0 (s.mem.readBytes s.i12 n) ↔ Lights s x y n px py := by
  simp only [mem_spriteCells, Memory.length_readBytes, Memory.getElem_readBytes, Nat.zero_add, column_eq_iff,
    row_eq_iff, exists_prop, ← exists_and_left]
  rfl

/-- A sprite of DXYN has at most 15 rows, so none wraps onto another. -/
theorem length_readBytes_le {s : State} {n : Nat} (hn : n < 16) : (s.mem.readBytes s.i12 n).length ≤ 32 := by
  rw [Memory.length_readBytes]; omega

theorem pixel_drawSprite_iff_lights {s : State} {n : Nat} (hn : n < 16) (x y : Reg) (px : Fin 64) (py : Fin 32) :
    (drawSprite s.pix (s.getV x) (s.getV y) (s.mem.readBytes s.i12 n)).pix.pixel px py = true ↔
      ¬ (s.pix.pixel px py = true ↔ Lights s x y n px py) := by
  rw [pixel_drawSprite _ _ _ _ (length_readBytes_le hn), Bool.xor_iff_ne, Ne, Bool.eq_iff_iff, decide_eq_true_iff,
    mem_spriteCells_iff_lights]

theorem hit_drawSprite_iff_lights {s : State} {n : Nat} (hn : n < 16) (x y : Reg) :
    (drawSprite s.pix (s.getV x) (s.getV y) (s.mem.readBytes s.i12 n)).hit = true ↔
      ∃ px py, Lights s x y n px py ∧ s.pix.pixel px py = true := by
  rw [hit_drawSprite _ _ _ _ (length_readBytes_le hn), List.any_eq_true, Prod.exists]
  simp only [mem_spriteCells_iff_lights]

/-- Settles O34: the display and the flag are those of the sprite's drawing, told by the pixels it lights. -/
theorem drawXorsTheSpriteAndReportsCollision : Obligations.DrawXorsTheSpriteAndReportsCollision := by
  intro s x y n hn
  have hhit := hit_drawSprite_iff_lights (s := s) hn x y
  refine ⟨fun hi => ⟨_, _, exec_drw_eq_next.2 ⟨hi, rfl⟩, pixel_drawSprite_iff_lights hn x y, ?_, ?_⟩,
    fun hi => exec_drw_eq_fault.2 ⟨hi, rfl⟩⟩
  · exact fun hcollision => if_pos (hhit.2 hcollision)
  · exact fun hnone => if_neg (mt hhit.1 hnone)

/-! ### The same sprite again (R191 (f)) -/

/-- XOR with the same cells twice is no change. -/
theorem pix_drawSprite_drawSprite (p : Display) (x0 y0 : Byte) {rows : List Byte} (hlen : rows.length ≤ 32) :
    (drawSprite (drawSprite p x0 y0 rows).pix x0 y0 rows).pix = p :=
  Display.ext_pixel fun px py => by
    rw [pixel_drawSprite _ _ _ _ hlen, pixel_drawSprite _ _ _ _ hlen, Bool.xor_assoc, Bool.xor_self, Bool.xor_false]

/-- DXYN run again with the coordinates, I and memory it leaves: its check passes as before, and the display is that of
the start. -/
theorem exec_drw_again {s t : State} {x y : Reg} {n : Nat} (hn : n < 16) (hx : x ≠ VF) (hy : y ≠ VF)
    (hfirst : exec (.drw x y n) s = .next t) (w : Word) :
    ∃ u, exec (.drw x y n) (t.setPc w) = .next u ∧ u.pix = s.pix := by
  obtain ⟨hi, rfl⟩ := exec_drw_eq_next.1 hfirst
  refine ⟨_, exec_drw_eq_next.2 ⟨hi, rfl⟩, ?_⟩
  simp only [State.setPc_pix, State.setV_pix, State.setPix_pix, State.setPc_getV, State.getV_setV_ne _ _ hx.symm,
    State.getV_setV_ne _ _ hy.symm, State.setPix_getV]
  exact pix_drawSprite_drawSprite _ _ _ (length_readBytes_le hn)

/-- Settles O35: the second draw unsets what the first one set, which is when it collides (R193). -/
theorem drawingTwiceRestoresTheDisplay : Obligations.DrawingTwiceRestoresTheDisplay := by
  intro s t x y n w hn hx hy hfirst
  obtain ⟨u, hsecond, hpix⟩ := exec_drw_again hn hx hy hfirst w
  refine ⟨u, hsecond, hpix, ?_⟩
  rw [← hpix]
  rcases drw_flag hn hsecond with ⟨hflag, px, py, hset, hunset⟩ | ⟨hflag, hkept⟩
  · exact iff_of_true hflag ⟨px, py, hunset, hset⟩
  · refine iff_of_false (by simp [hflag]) ?_
    rintro ⟨px, py, hunset, hset⟩
    exact absurd (hkept px py hset) (by simp [hunset])

end Sys2Proof.Machine
end

section
/-! PROOFS. Timers and keypad (spec/46_timer_key.md): FX0A answers by the lowest pressed key; FX07, FX15 and FX18 move
one byte. -/

namespace Sys2Proof.Machine

open Sys2Proof.Claim

/-! ### The key wait (R201) -/

theorem exec_ldVxK_of_lowestKey_eq_some {s : State} {k : KeyNum} (x : Reg) (hk : lowestKey s.key = some k) :
    exec (.ldVxK x) s = .next ((s.setV x (keyByte k)).setPc (s.pc + 2)) := by
  rw [exec_ldVxK, hk]

/-- The Step that waits writes to pc the address it had. -/
theorem exec_ldVxK_of_lowestKey_eq_none {s : State} (x : Reg) (hk : lowestKey s.key = none) :
    exec (.ldVxK x) s = .next s := by
  rw [exec_ldVxK, hk, setPc_self]

/-- Settles O37: a pressed key with no lower one pressed is the lowest, and with none pressed there is no lowest. -/
theorem keyWaitTakesTheLowestKeyOrChangesNothing : Obligations.KeyWaitTakesTheLowestKeyOrChangesNothing := by
  intro s x
  refine ⟨fun k hdown hlower => ?_, fun hup => ?_⟩
  · exact exec_ldVxK_of_lowestKey_eq_some x (lowestKey_eq_some.2 ⟨hdown, hlower⟩)
  · exact exec_ldVxK_of_lowestKey_eq_none x (lowestKey_eq_none.2 hup)

/-! ### The timers (R200, R202, R203) -/

/-- Settles O36: each is its instruction's equation, with the one byte written out. -/
theorem timerInstructionsMoveOneByte : Obligations.TimerInstructionsMoveOneByte :=
  fun s x => ⟨exec_ldVxDt s x, exec_ldDtVx s x, exec_ldStVx s x⟩

end Sys2Proof.Machine
end

section
/-! PROOFS. Faults, Tick, KeySet, the views and refused moves (spec/60_exceptions.md): an instruction completes unless
its one check fails; what decides a fault is the fetch, I and SP, which neither Tick nor KeySet changes. -/

namespace Sys2Proof.Machine

open Sys2Proof.Claim

/-! ### Faults (R211 to R220) -/

/-- Settles O47: an instruction is never refused, so that with no fault it completes. -/
theorem instructionsCompleteUnlessTheirCheckFails : Obligations.InstructionsCompleteUnlessTheirCheckFails := by
  intro i s
  refine ⟨fun hnone => ?_, fun f => exec_eq_fault.2⟩
  cases h : exec i s with
  | next t => exact ⟨t, rfl⟩
  | fault f => exact absurd (exec_eq_fault.1 h) (by simp [hnone])
  | refused r => exact absurd h (exec_ne_refused i s r)

/-- The checks look at I and SP alone. -/
theorem faultOf_congr {s s' : State} (hi : s'.i = s.i) (hsp : s'.sp = s.sp) (i : Instr) :
    faultOf i s' = faultOf i s := by
  have hi12 : s'.i12 = s.i12 := by rw [State.i12, State.i12, hi]
  cases i with
  | ret | call => simp only [faultOf, hsp]
  | drw | ldB | storeRegs | loadRegs => simp only [faultOf, hi12]
  | _ => rfl

/-- A Step that faults does so by its fetch, I and SP: the same three are the same fault, whatever stage raises it. -/
theorem step_fault_of_eq {s s' : State} {f : Fault} (hfetch : fetch s'.core = fetch s.core) (hi : s'.i = s.i)
    (hsp : s'.sp = s.sp) (h : step s = .fault f) : step s' = .fault f := by
  rw [step_eq_fault] at h ⊢
  rw [hfetch]
  refine h.imp_right (Or.imp_right ?_)
  rintro ⟨op, i, hop, hdecode, hexec⟩
  refine ⟨op, i, hop, hdecode, exec_eq_fault.2 ?_⟩
  exact (faultOf_congr hi hsp i).trans (exec_eq_fault.1 hexec)

/-- The same for Step(rand), whatever the two bytes are. -/
theorem stepWith_fault_of_eq {c c' : CoreState} {r r' : Byte} {f : Fault} (hfetch : fetch c' = fetch c)
    (hi : c'.i = c.i) (hsp : c'.sp = c.sp) (h : stepWith r c = .fault f) : stepWith r' c' = .fault f :=
  stepWith_eq_fault.2 (step_fault_of_eq (s := c.given r) hfetch hi hsp (stepWith_eq_fault.1 h))

/-- Settles O48: Tick and KeySet keep the fetch, I and SP. -/
theorem faultsLeaveTheStateAndRepeat : Obligations.FaultsLeaveTheStateAndRepeat :=
  fun c _ _ _ k p _ h => ⟨stepOnce_of_fault h, stepWith_fault_of_eq rfl rfl rfl h,
    stepWith_fault_of_eq (fetch_tick c) (tick_i c) (tick_sp c) h,
    stepWith_fault_of_eq (fetch_keySet c k p) (keySet_i c k p) (keySet_sp c k p) h⟩

/-! ### Tick (R225, R228) -/

/-- Settles O54, by induction on the number of Ticks: each takes one off, and a difference of naturals stops at 0. -/
theorem ticksCountDownToZeroAndStay : Obligations.TicksCountDownToZeroAndStay := by
  intro n
  induction n with
  | zero => exact fun c => ⟨rfl, rfl⟩
  | succ n ih =>
    intro c
    obtain ⟨hdt, hst⟩ := ih c.tick
    rw [tick_dt, toNat_countDown, Nat.sub_sub, Nat.add_comm] at hdt
    rw [tick_st, toNat_countDown, Nat.sub_sub, Nat.add_comm] at hst
    exact ⟨hdt, hst⟩

/-- Settles O53: both timers are counted down. -/
theorem tickDecrementsBothTimersAndNothingElse : Obligations.TickDecrementsBothTimersAndNothingElse :=
  fun _ c => ⟨countDown c.dt, countDown c.st, rfl, toNat_countDown c.dt, toNat_countDown c.st⟩

/-! ### KeySet and the views (R229 to R234) -/

/-- Settles O56: the keypad is set at that key alone. -/
theorem keySetWritesOneKeyAndNothingElse : Obligations.KeySetWritesOneKeyAndNothingElse :=
  fun _ c k p => ⟨c.key.set k p, rfl, Vector.getElem_set_self k.isLt,
    fun j hj => Vector.getElem_set_ne k.isLt j.isLt (Fin.val_ne_of_ne hj.symm)⟩

theorem debug_nextBytes_of_le {c : CoreState} (h : c.pc.toNat ≤ 4094) :
    (CoreState.debug c).nextBytes = some (c.mem.read c.pc.toNat, c.mem.read (c.pc.toNat + 1)) :=
  if_neg (Nat.not_lt.2 (Nat.add_le_add_right h 2))

theorem debug_nextBytes_of_ge {c : CoreState} (h : 4095 ≤ c.pc.toNat) : (CoreState.debug c).nextBytes = none :=
  if_pos (Nat.add_le_add_right h 2)

theorem soundActive_eq (c : CoreState) : c.soundActive = decide (c.st ≠ 0) := decide_not.symm

/-- Settles O57: each view is its function of the state; the debug view has bytes at pc up to the last place an
instruction fits. -/
theorem viewsShowTheStateAndChangeNothing : Obligations.ViewsShowTheStateAndChangeNothing := by
  intro b c
  refine ⟨?_, ⟨c.pix, rfl, fun _ _ => rfl⟩,
    c.debug, rfl, rfl, rfl, rfl, rfl, rfl, rfl, rfl, debug_nextBytes_of_le, debug_nextBytes_of_ge⟩
  rw [Session.transact, soundActive_eq]

/-! ### Refused moves (R238, R254, R256; log 6) -/

theorem imageWellFormed_eq_false {bytes : List Byte} (h : 3584 < bytes.length) : imageWellFormed bytes = false :=
  decide_eq_false (Nat.not_le.2 h)

theorem loadOnce_too_long (c : CoreState) {bytes : List Byte} (h : 3584 < bytes.length) :
    Session.loadOnce true bytes c = (.running true c, .refused .loadTooLong) := by
  simp [Session.loadOnce, imageWellFormed_eq_false h]

theorem loadOnce_out_of_turn (c : CoreState) (bytes : List Byte) :
    Session.loadOnce false bytes c = (.running false c, .refused .loadOutOfTurn) := rfl

/-- Also when it faults (log 6). -/
theorem stepOnce_ends_turn (r : Byte) (c : CoreState) : ∃ t, (Session.stepOnce r c).1 = .running false t := by
  rcases stepWith_ok_or_fault r c with ⟨t, h⟩ | ⟨f, h⟩
  · exact ⟨t, by rw [stepOnce_of_next h]⟩
  · exact ⟨c, by rw [stepOnce_of_fault h]⟩

theorem transact_beforeReset {tx : Transaction} (h : tx ≠ .reset) :
    Session.transact .beforeReset tx = (.beforeReset, .refused .beforeReset) := by
  cases tx with
  | reset => exact absurd rfl h
  | _ => rfl

/-- Settles O4, move by move; a Step ends the turn of Load whichever of its two answers it gives. -/
theorem movesWithoutMeaningAreRefusedAndChangeNothing : Obligations.MovesWithoutMeaningAreRefusedAndChangeNothing :=
  ⟨fun c _ => loadOnce_too_long c, loadOnce_out_of_turn, fun _ c r => stepOnce_ends_turn r c,
    fun _ => transact_beforeReset⟩

end Sys2Proof.Machine
end

section
/-! PROOFS. Reset and Load (spec/70_reset_and_hazards.md): Reset looks at neither the session nor the core before it
(R251, R252); a Load in its turn is the run of bytes written from 0x200 (R255). -/

namespace Sys2Proof.Machine

/-! ### Load (R254 to R256) -/

theorem imageWellFormed_eq_true {bytes : List Byte} (h : bytes.length ≤ 3584) : imageWellFormed bytes = true :=
  decide_eq_true h

/-- A Load that is neither out of turn nor too long is done, and its turn is over. -/
theorem loadOnce_in_turn (c : CoreState) {bytes : List Byte} (h : bytes.length ≤ 3584) :
    Session.loadOnce true bytes c = (.running false (c.load bytes), .done) := by
  simp [Session.loadOnce, imageWellFormed_eq_true h]

/-- Settles O3: the new memory is the old one with the run of bytes written from 0x200, read inside and outside it. -/
theorem loadPlacesBytesVerbatimAndNothingElse : Obligations.LoadPlacesBytesVerbatimAndNothingElse :=
  fun c bytes hlen => ⟨c.mem.writeBytes 0x200 bytes, loadOnce_in_turn c hlen,
    fun k => Memory.read_writeBytes_inside c.mem 0x200 k bytes,
    fun a => Memory.read_writeBytes_outside c.mem 0x200 a bytes⟩

/-! ### Reset (R250 to R252) -/

/-- Reset has one answer for every session, before the first Reset and during a run alike. -/
theorem transact_reset (s : Session) : Session.transact s .reset = (.running true CoreState.reset, .done) := by
  cases s with
  | beforeReset => rfl
  | running b c => rfl

/-- Settles O2: the two cases are that one answer. -/
theorem resetTransactionHasItsFullEffectAtAnyTime : Obligations.ResetTransactionHasItsFullEffectAtAnyTime :=
  ⟨transact_reset .beforeReset, fun b c => transact_reset (.running b c)⟩

end Sys2Proof.Machine
end
